-- ==== Sys2Proof/Word.lean ====
section
/-! DEFINITION. The widths SARE-1 uses (spec/00_scope.md R7, R8). -/

namespace Sys2Proof

/-- A 32-bit register, command word or event value (R7 `REG_WIDTH`). -/
abbrev Word := BitVec 32

/-- A byte of the register window (20_memory.md R43). -/
abbrev Byte := BitVec 8

/-- A pin identifier (R7 `PIN_WIDTH`, 8 bits). -/
abbrev Pin := BitVec 8

/-- A byte offset into the 16-byte register window (20_memory.md R41, R42). -/
abbrev Offset := BitVec 4

/-- A name of the host program (30_encoding.md R73), as its characters. -/
abbrev Name := List Char

end Sys2Proof
end

