-- ==== Sys2Proof/Syntax.lean ====
section
/-! DEFINITION. The commands of SARE-1 (spec/30_encoding.md R66) and the statements of its assembly (R73, R74). -/

namespace Sys2Proof

/-- A decoded command: one constructor for each row of spec/opcode_table.json. The pin is the word's `PIN` field;
the operand `a` of INITPR, SETRES, SETDLY and SETRESCFG is no part of the word, it is `OPL` (R65). -/
inductive Instr where
  | init
  | initp (p : Pin)
  | initpr (p : Pin)
  | conv
  | setres
  | setdly
  | getdly
  | getres
  | setrescfg
deriving DecidableEq, Repr

/-- A host statement (R73.1): one bus access at an offset of the window with a width in bytes, or `wait`. An
access of any width and direction can be written; SARE decides what is legal (20_memory.md R44). -/
inductive HostStmt where
  | write (off : Offset) (width : Nat) (v : Word)
  | read (off : Offset) (width : Nat) (name : Name)
  | wait
deriving DecidableEq, Repr

/-- A command statement (R73.2, R74), with its operands as the numbers an assembler reads. -/
inductive CmdStmt where
  | init
  | initp (p : Nat)
  | initpr (p r : Nat)
  | conv (name : Name)
  | setres (r : Nat)
  | setrescfg (r : Nat)
  | setdly (d : Nat)
  | getdly (name : Name)
  | getres (name : Name)
deriving DecidableEq, Repr

end Sys2Proof
end

