-- ==== Sys2Proof/WellFormed.lean ====
section
/-! DEFINITION. What an assembler refuses (spec/30_encoding.md R74). A decoded `Instr` needs no check: its only
field is an 8-bit pin, and every pin value is legal (R68). -/

namespace Sys2Proof

/-- "an integer from 0 to 255" (R74). -/
def pinInRange (p : Nat) : Bool := decide (p < 256)

/-- "any 32-bit number" (R74). -/
def wordInRange (v : Nat) : Bool := decide (v < 4294967296)

/-- "An assembler refuses a `p` outside 0..255 and refuses `d` or `r` outside 32 bits" (R74). -/
def CmdStmt.wellFormed : CmdStmt → Bool
  | .init => true
  | .initp p => pinInRange p
  | .initpr p r => pinInRange p && wordInRange r
  | .conv _ => true
  | .setres r => wordInRange r
  | .setrescfg r => wordInRange r
  | .setdly d => wordInRange d
  | .getdly _ => true
  | .getres _ => true

end Sys2Proof
end

