-- ==== Sys2Proof/Decode.lean ====
section
/-! DEFINITION. The decoder (spec/30_encoding.md R63 to R72), the encoder written from the same opcode map, and the
byte order of a command word (20_memory.md R43, 30_encoding.md R75). -/

namespace Sys2Proof

/-- `OP`, bits 3:0 (R63). -/
def opField (w : Word) : BitVec 4 := w.extractLsb' 0 4

/-- `RSV0`, bits 7:4 (R63). -/
def rsv0Field (w : Word) : BitVec 4 := w.extractLsb' 4 4

/-- `PIN`, bits 15:8 (R63, R65). -/
def pinField (w : Word) : Pin := w.extractLsb' 8 8

/-- `RSV1`, bits 31:16 (R63). -/
def rsv1Field (w : Word) : BitVec 16 := w.extractLsb' 16 16

/-- Why a word is illegal (R69), in the order R67 looks for it; `truncated`: the bytes hold no whole word. -/
inductive Illegal where
  | reservedBits
  | reservedOpcode
  | misplacedPin
  | truncated
deriving DecidableEq, Repr

/-- A command other than INITP and INITPR is legal only with a zero `PIN` field (R67). -/
def withoutPin (w : Word) (i : Instr) : Except Illegal Instr :=
  if pinField w = 0 then .ok i else .error .misplacedPin

/-- `decode(w)` (R67). -/
def decode (w : Word) : Except Illegal Instr :=
  if rsv1Field w ≠ 0 ∨ rsv0Field w ≠ 0 then .error .reservedBits
  else
    match (opField w).toNat with
    | 0x1 => withoutPin w .init
    | 0x2 => .ok (.initp (pinField w))
    | 0x3 => .ok (.initpr (pinField w))
    | 0x4 => withoutPin w .conv
    | 0x5 => withoutPin w .setres
    | 0x6 => withoutPin w .setdly
    | 0x7 => withoutPin w .getdly
    | 0x8 => withoutPin w .getres
    | 0x9 => withoutPin w .setrescfg
    | _ => .error .reservedOpcode

/-- The four bytes of a word, the byte of lowest address first (20_memory.md R43). -/
def wordBytes (w : Word) : List Byte :=
  [w.extractLsb' 0 8, w.extractLsb' 8 8, w.extractLsb' 16 8, w.extractLsb' 24 8]

/-- The word whose four bytes stand at rising addresses (20_memory.md R43). -/
def wordOfBytes (b0 b1 b2 b3 : Byte) : Word := b3 ++ b2 ++ b1 ++ b0

/-- The command in the first four bytes, and the bytes after them. -/
def decodeBytes : List Byte → Except Illegal (Instr × List Byte)
  | b0 :: b1 :: b2 :: b3 :: rest =>
    match decode (wordOfBytes b0 b1 b2 b3) with
    | .ok i => .ok (i, rest)
    | .error e => .error e
  | _ => .error .truncated

/-- The fixed command words and the two pin-bearing forms `0x0000pp02`, `0x0000pp03` (R66). -/
def encode : Instr → Word
  | .init => 0x00000001#32
  | .initp p => 0x0000#16 ++ p ++ 0x02#8
  | .initpr p => 0x0000#16 ++ p ++ 0x03#8
  | .conv => 0x00000004#32
  | .setres => 0x00000005#32
  | .setdly => 0x00000006#32
  | .getdly => 0x00000007#32
  | .getres => 0x00000008#32
  | .setrescfg => 0x00000009#32

/-- The instruction the decoder reads from table bits: laid out as the bytes of one little-endian command word. -/
def decodeTableWord (nbits w : Nat) : Option Instr :=
  if w % 2 ^ nbits < 4294967296 then
    match decodeBytes (wordBytes (BitVec.ofNat 32 (w % 2 ^ nbits))) with
    | .ok (i, _) => some i
    | .error _ => none
  else none

end Sys2Proof
end

