-- ==== Sys2Proof/Config.lean ====
section
/-! DEFINITION. What an implementation of SARE-1 fixes (spec/00_scope.md R7), and the free values. An OPEN
parameter and a free value are constants without a body: no proof can see what they are. -/

namespace Sys2Proof

/-- The two resolutions (00_scope.md R3); `RES` and `BRES` hold one of them (10_state.md R20, R27). -/
inductive Resolution where
  | eightBit
  | tenBit
deriving DecidableEq, Repr, Inhabited

/-- The level of the comparator output (00_scope.md R6, R12). -/
inductive Level where
  | low
  | high
deriving DecidableEq, Repr, Inhabited

/-- Whose step comes next (00_scope.md R16, R17), or a move of the reset input (70_reset_and_hazards.md R133, R152). -/
inductive Turn where
  | host
  | engine
  | tick
  | assertReset
  | releaseReset
deriving DecidableEq, Repr, Inhabited

namespace Config

/-- `DEFAULT_PIN`: OPEN, an integer in 0..255 (R7, D13). -/
opaque defaultPin : Pin

/-- `INIT_DUTY(EIGHT_BIT)`: OPEN, an integer in 0..255 (R7, D16). -/
opaque initDutyEightBit : BitVec 8

/-- `INIT_DUTY(TEN_BIT)`: OPEN, an integer in 0..1023 (R7, D16). -/
opaque initDutyTenBit : BitVec 10

/-- `BASE` counted in blocks of 16 bytes: OPEN (R7, D3). -/
opaque baseBlock : Nat

/-- `BASE`: a 16-byte-aligned address chosen by the platform (R7, 20_memory.md R41). -/
def base : Nat := 16 * baseBlock

/-- The level of a comparator read beyond those `State.levels` lists: a free value, one for each count
(00_scope.md R12; log entry 4). -/
opaque freeLevel : Nat → Level

/-- The turn beyond those `State.turns` lists: a free value, one for each count (20_memory.md R59,
60_exceptions.md R123; log entry 3). -/
opaque freeTurn : Nat → Turn

/-- `DELAY_INIT`, in microseconds (R7). -/
def delayInit : Word := 60#32

/-- `DELAY_INITP`, in microseconds (R7, D14). -/
def delayInitp : Word := 60#32

/-- `DELAY_INITPR`, in microseconds (R7). -/
def delayInitpr : Word := 69#32

/-- `RES_INIT` (R7). -/
def resInit : Resolution := .tenBit

/-- `RES_INITP` (R7, D14). -/
def resInitp : Resolution := .tenBit

/-- `SUCCESS` (R7). -/
def success : Word := 0#32

/-- `ERR_RES` (R7, 90_conflicts.md C1). -/
def errRes : Word := 1#32

end Config

end Sys2Proof
end

