-- ==== Sys2Proof/Machine/State.lean ====
section
/-! DEFINITION. SARE's state (spec/10_state.md R18 to R40) and the state of a run around it
(spec/70_reset_and_hazards.md R133, R149, R150), as plain data. -/

namespace Sys2Proof.Machine

/-- `SEQ`, the sequencer phase (10_state.md R31). -/
inductive Phase where
  | boot
  | idle
  | exec
  | cTrial
  | cSettle
  | cSample
deriving DecidableEq, Repr

/-- `STATUS.LAST`, the completion status of the last command; value 3 is never written (10_state.md R36). -/
inductive Completion where
  | ok
  | errRes
  | illegal
deriving DecidableEq, Repr

/-- The one mode of the pulse generator, `MODE_EVEN` (00_scope.md R7). -/
inductive GenMode where
  | even
deriving DecidableEq, Repr

/-- A peripheral event (00_scope.md R11, 20_memory.md R53, R54). -/
inductive Event where
  | pinCfg (p : Pin)
  | freq (hz : Word)
  | counts (n : Word)
  | duty (n : Word)
  | mode (m : GenMode)
  | read (p : Pin) (l : Level)
deriving DecidableEq, Repr

/-- An entry of the run fault record (70_reset_and_hazards.md R149). -/
inductive RunFault where
  | busError (addr : Nat)
  | illegalCommand (w : Word)
deriving DecidableEq, Repr

/-- How a run can stop with a fault. A bus error and an illegal command do not: the machine goes on, and the run
fault record keeps them (70_reset_and_hazards.md R149). -/
inductive Fault where
  /-- Raised by the trial and sample steps of CONV when the new accumulator does not fit its 10 bits. "A write of a
  value that does not fit the width is never made by any rule" (00_scope.md R9): only states no run reaches raise it.
  Safe: the model stops. -/
  | accDoesNotFit
deriving DecidableEq, Repr

/-- What the model gives no meaning to. -/
inductive Refusal where
  /-- Raised by an arm of `exec` whose instruction has no meaning yet; no arm does. Safe. -/
  | notModelled (mnemonic : String)
  /-- Raised by a host step that would access a register while reset is asserted: "A model refuses such an access"
  (70_reset_and_hazards.md R133). Safe. -/
  | accessDuringReset
deriving DecidableEq, Repr

/-- The machine. `STATUS.BUSY` is computed from `seq` (10_state.md R35); `CMD` holds no state (R40). -/
structure State where
  /-- `RES` (10_state.md R20). -/
  res : Resolution
  /-- `DELAY` (R22). -/
  delay : Word
  /-- `PIN` (R24). -/
  pin : Pin
  /-- `BRES` (R27). -/
  bres : Resolution
  /-- `ACC` (R28). -/
  acc : BitVec 10
  /-- `BIT` (R29). -/
  bit : BitVec 4
  /-- `SCNT` (R30). -/
  scnt : Word
  /-- `SEQ` (R31). -/
  seq : Phase
  /-- `CMDL` (R32). -/
  cmdl : Word
  /-- `OPL` (R32). -/
  opl : Word
  /-- `ARG` (R38). -/
  arg : Word
  /-- `RSP` (R39). -/
  rsp : Word
  /-- `STATUS.LAST` (R36). -/
  last : Completion
  /-- `STATUS.ILL` (R37). -/
  ill : Bool
  /-- `H`, the event history, oldest first (R21). -/
  hist : List Event
  /-- The reset input is asserted (70_reset_and_hazards.md R133). -/
  inReset : Bool
  /-- The held `CMD` write, if there is one (20_memory.md R51). -/
  held : Option Word
  /-- The run fault record, oldest first (70_reset_and_hazards.md R149). -/
  faults : List RunFault
  /-- The statements the host has left (70_reset_and_hazards.md R150.4). -/
  program : List HostStmt
  /-- The host's bound names (70_reset_and_hazards.md R150). -/
  names : List (Name × Word)
  /-- The model's own: whose turn comes next, as far as it is fixed (log entry 3). -/
  turns : List Turn
  /-- The model's own: how many free turns were taken (log entry 3). -/
  turnNo : Nat
  /-- The model's own: the comparator's next answers, as far as they are fixed (log entry 4). -/
  levels : List Level
  /-- The model's own: how many free levels were read (log entry 4). -/
  draws : Nat
deriving DecidableEq, Repr

/-- The machine right after reset: reset released, before the boot step (70_reset_and_hazards.md R136). -/
def State.reset : State where
  res := .tenBit
  delay := 60#32
  pin := Config.defaultPin
  bres := .tenBit
  acc := 0#10
  bit := 0#4
  scnt := 0#32
  seq := .boot
  cmdl := 0#32
  opl := 0#32
  arg := 0#32
  rsp := 0#32
  last := .ok
  ill := false
  hist := []
  inReset := false
  held := none
  faults := []
  program := []
  names := []
  turns := []
  turnNo := 0
  levels := []
  draws := 0

end Sys2Proof.Machine
end

