-- ==== Sys2Proof/Machine/Flags.lean ====
section
/-! DEFINITION. `STATUS` and the completion of a command (spec/10_state.md R34 to R37, spec/40_configuration.md R79). -/

namespace Sys2Proof.Machine

/-- `STATUS.BUSY`: 1 exactly when `SEQ` is not `IDLE` (10_state.md R35). -/
def busy (s : State) : Bool := s.seq != .idle

/-- The two bits of `STATUS.LAST` (10_state.md R36). -/
def completionBits : Completion → BitVec 2
  | .ok => 0#2
  | .errRes => 1#2
  | .illegal => 2#2

/-- `STATUS` as a read returns it: `{ 28'b0, ILL, LAST, BUSY }` (20_memory.md R45). -/
def statusWord (s : State) : Word :=
  0#28 ++ BitVec.ofBool s.ill ++ completionBits s.last ++ BitVec.ofBool (busy s)

/-- `Complete(status, rsp)` (40_configuration.md R79). -/
def complete (c : Completion) (rsp : Word) (s : State) : State :=
  { s with rsp := rsp, last := c, seq := .idle }

end Sys2Proof.Machine
end

