-- ==== Sys2Proof/Machine/Operands.lean ====
section
/-! DEFINITION. The operands of the commands and the resolution mapping (spec/00_scope.md R7, R15,
spec/30_encoding.md R65, spec/40_configuration.md R80). -/

namespace Sys2Proof.Machine

/-- The value operand `a = x[OPL]`, used as is (30_encoding.md R65). -/
def valueOperand (s : State) : Word := s.opl

/-- `valid_res(v)`, all 32 bits compared (00_scope.md R15). -/
def validRes (v : Word) : Bool := v == 0#32 || v == 1#32

/-- `res_of(v)`: 0 is EIGHT_BIT and 1 is TEN_BIT (00_scope.md R15); used only where `valid_res` holds. -/
def resOf (v : Word) : Resolution := if v = 0#32 then .eightBit else .tenBit

/-- `RES_ID(r)` (00_scope.md R7), the one bit `RES` holds (10_state.md R20). -/
def resId : Resolution → BitVec 1
  | .eightBit => 0#1
  | .tenBit => 1#1

/-- `top(r)` (00_scope.md R7, R15). -/
def top : Resolution → Nat
  | .eightBit => 7
  | .tenBit => 9

/-- `counts(r)` (00_scope.md R7, R15). -/
def counts : Resolution → Word
  | .eightBit => 256#32
  | .tenBit => 1024#32

/-- `freq(r)`, in hertz (00_scope.md R7, R15; D19). -/
def freq : Resolution → Word
  | .eightBit => 37500#32
  | .tenBit => 9370#32

/-- `duty0(r)` (00_scope.md R7, R15): the OPEN initial duty counts. -/
def duty0 : Resolution → Word
  | .eightBit => Config.initDutyEightBit.setWidth 32
  | .tenBit => Config.initDutyTenBit.setWidth 32

end Sys2Proof.Machine
end

