-- ==== Sys2Proof/Machine/Ops.lean ====
section
/-! DEFINITION. The operations the meanings share: events, the comparator, the bundle, construction, the two errors,
the register window and reset (spec/00_scope.md R11 to R13, spec/20_memory.md, spec/40_configuration.md R81,
spec/60_exceptions.md R119, spec/70_reset_and_hazards.md R133). -/

namespace Sys2Proof.Machine

/-! ### Events and the comparator -/

/-- `Emit(e)`: appends to the event stream (00_scope.md R11, 20_memory.md R55). -/
def emit (e : Event) (s : State) : State := { s with hist := s.hist ++ [e] }

/-- The level the comparator answers next, and the state after it was drawn (00_scope.md R12; log entry 4). -/
def drawLevel (s : State) : Level × State :=
  match s.levels with
  | l :: ls => (l, { s with levels := ls })
  | [] => (Config.freeLevel s.draws, { s with draws := s.draws + 1 })

/-- `Sample(p)`: one comparator read, emitting `Read(p, l)` (00_scope.md R12). -/
def sample (p : Pin) (s : State) : Level × State :=
  ((drawLevel s).1, emit (.read p (drawLevel s).1) (drawLevel s).2)

/-! ### The bundle and construction -/

/-- The four events of `ApplyBundle(r)`, in order (40_configuration.md R81). -/
def bundle (r : Resolution) : List Event :=
  [.freq (freq r), .counts (counts r), .duty (duty0 r), .mode .even]

/-- `ApplyBundle(r)`: emits the four events and records the resolution they were sent for (40_configuration.md R81). -/
def applyBundle (r : Resolution) (s : State) : State :=
  { s with hist := s.hist ++ bundle r, bres := r }

/-- What every constructor and the boot step share: bind the pin and emit `PinCfg`, set resolution and delay, apply
the bundle, in this order (40_configuration.md R82 to R84, 70_reset_and_hazards.md R134). -/
def construct (p : Pin) (r : Resolution) (d : Word) (s : State) : State :=
  applyBundle r { emit (.pinCfg p) { s with pin := p } with res := r, delay := d }

/-- The response of a command whose resolution operand is not recognized (60_exceptions.md R118). -/
def rejectResolution (s : State) : State := complete .errRes Config.errRes s

/-! ### The two errors. SARE has no trap entry and no trap return (60_exceptions.md R124, R125). -/

/-- `raise IllegalCommand(w)` (60_exceptions.md R119), with its entry in the run fault record
(70_reset_and_hazards.md R149). -/
def raiseIllegal (w : Word) (s : State) : State :=
  { s with last := .illegal, ill := true, seq := .idle, faults := s.faults ++ [.illegalCommand w] }

/-- The address of an offset of the window (20_memory.md R41). -/
def busAddr (off : Offset) : Nat := Config.base + off.toNat

/-- `raise BusError(addr)`: changes no state of SARE (20_memory.md R48); the run fault record gains an entry
(70_reset_and_hazards.md R149). -/
def raiseBusError (off : Offset) (s : State) : State :=
  { s with faults := s.faults ++ [.busError (busAddr off)] }

/-! ### The register window -/

/-- Every legal access is 32 bits wide at a multiple of 4 (20_memory.md R44); `BASE` is a multiple of 16, so the
address is one exactly when its offset is. -/
def legalAccess (off : Offset) (width : Nat) : Bool := width == 4 && off.toNat % 4 == 0

/-- `MemRead`: the value read, or none for a bus error (20_memory.md R45). -/
def memRead (off : Offset) (width : Nat) (s : State) : Option Word :=
  if legalAccess off width then
    match off.toNat with
    | 0x4 => some s.arg
    | 0x8 => some s.rsp
    | 0xC => some (statusWord s)
    | _ => none
  else none

/-- The byte at an offset of a register the host can read (20_memory.md R43); none in `CMD`, which is write-only. -/
def windowByte (off : Offset) (s : State) : Option Byte :=
  match memRead (BitVec.ofNat 4 (4 * (off.toNat / 4))) 4 s with
  | some w => (wordBytes w)[off.toNat % 4]?
  | none => none

/-- Acceptance of a command word (20_memory.md R50). -/
def accept (v : Word) (s : State) : State :=
  { s with cmdl := v, opl := s.arg, seq := .exec }

/-- `CommandWrite(v)`: accepted when idle (20_memory.md R50), held otherwise (R51). -/
def commandWrite (v : Word) (s : State) : State :=
  if s.seq = .idle then accept v s else { s with held := some v }

/-- `MemWrite` (20_memory.md R47). -/
def memWrite (off : Offset) (width : Nat) (v : Word) (s : State) : State :=
  if legalAccess off width then
    match off.toNat with
    | 0x0 => commandWrite v s
    | 0x4 => { s with arg := v }
    | _ => raiseBusError off s
  else raiseBusError off s

/-- A host name gets a value (30_encoding.md R73). -/
def bindName (name : Name) (v : Word) : List (Name × Word) → List (Name × Word)
  | [] => [(name, v)]
  | (n, w) :: rest => if n = name then (name, v) :: rest else (n, w) :: bindName name v rest

/-- The value of a host name, if it has one. -/
def lookupName (name : Name) : List (Name × Word) → Option Word
  | [] => none
  | (n, w) :: rest => if n = name then some w else lookupName name rest

/-! ### Reset -/

/-- A `CMD` write held when reset is asserted completes with a bus error (70_reset_and_hazards.md R133). -/
def abandonHeld (s : State) : State :=
  match s.held with
  | some _ => { raiseBusError 0x0#4 s with held := none }
  | none => s

/-- The reset input is asserted: every element of SARE takes its reset value (70_reset_and_hazards.md R133, R136);
the event history and the run fault record stay (10_state.md R21, 70_reset_and_hazards.md R149). -/
def assertReset (s : State) : State :=
  { abandonHeld s with
    res := .tenBit, delay := 60#32, pin := Config.defaultPin, bres := .tenBit
    acc := 0#10, bit := 0#4, scnt := 0#32, seq := .boot, cmdl := 0#32, opl := 0#32
    arg := 0#32, rsp := 0#32, last := .ok, ill := false, inReset := true }

/-- The reset input is released (70_reset_and_hazards.md R134). -/
def releaseReset (s : State) : State := { s with inReset := false }

end Sys2Proof.Machine
end

