-- ==== Sys2Proof/Machine/Configuration.lean ====
section
/-! DEFINITION. The configuration commands (spec/40_configuration.md R82 to R90). -/

namespace Sys2Proof.Machine

/-- INIT (40_configuration.md R82). -/
def execInit (s : State) : Host.Outcome State Fault Refusal :=
  .next (complete .ok 0#32 (construct Config.defaultPin Config.resInit Config.delayInit s))

/-- INITP p (40_configuration.md R83). -/
def execInitp (p : Pin) (s : State) : Host.Outcome State Fault Refusal :=
  .next (complete .ok 0#32 (construct p Config.resInitp Config.delayInitp s))

/-- INITPR p, a (40_configuration.md R84). -/
def execInitpr (p : Pin) (s : State) : Host.Outcome State Fault Refusal :=
  if validRes (valueOperand s) then
    .next (complete .ok Config.success (construct p (resOf (valueOperand s)) Config.delayInitpr s))
  else .next (rejectResolution s)

/-- SETRES a: the bundle is not applied (40_configuration.md R85). -/
def execSetres (s : State) : Host.Outcome State Fault Refusal :=
  if validRes (valueOperand s) then
    .next (complete .ok Config.success { s with res := resOf (valueOperand s) })
  else .next (rejectResolution s)

/-- SETRESCFG a (40_configuration.md R86). -/
def execSetrescfg (s : State) : Host.Outcome State Fault Refusal :=
  if validRes (valueOperand s) then
    .next (complete .ok Config.success
      (applyBundle (resOf (valueOperand s)) { s with res := resOf (valueOperand s) }))
  else .next (rejectResolution s)

/-- SETDLY a (40_configuration.md R87). -/
def execSetdly (s : State) : Host.Outcome State Fault Refusal :=
  .next (complete .ok 0#32 { s with delay := valueOperand s })

/-- GETDLY (40_configuration.md R88). -/
def execGetdly (s : State) : Host.Outcome State Fault Refusal :=
  .next (complete .ok s.delay s)

/-- GETRES (40_configuration.md R89). -/
def execGetres (s : State) : Host.Outcome State Fault Refusal :=
  .next (complete .ok ((resId s.res).setWidth 32) s)

end Sys2Proof.Machine
end

