-- ==== Sys2Proof/Machine/Conversion.lean ====
section
/-! DEFINITION. The conversion command and its steps (spec/41_conversion.md R101 to R107). Sums and differences are
computed as numbers and narrowed only where they fit (spec/00_scope.md R8, R9). -/

namespace Sys2Proof.Machine

/-- CONV: its start step, in the step that decodes it (41_conversion.md R103). The steps below carry it on. -/
def execConv (s : State) : Host.Outcome State Fault Refusal :=
  .next { s with acc := 0#10, seq := .cTrial, bit := BitVec.ofNat 4 (top s.res) }

/-- The trial step: set the bit, send the duty count, load the settle counter (41_conversion.md R104). -/
def trialStep (s : State) : Host.Outcome State Fault Refusal :=
  let v := s.acc.toNat + 2 ^ s.bit.toNat
  if v < 1024 then
    .next { emit (.duty (BitVec.ofNat 32 v)) s with
      acc := BitVec.ofNat 10 v, scnt := s.delay, seq := .cSettle }
  else .fault .accDoesNotFit

/-- The settle step: only once the settle counter is 0; until then the engine has no step (41_conversion.md R105). -/
def settleStep (s : State) : Host.Outcome State Fault Refusal :=
  .next (if s.scnt = 0#32 then { s with seq := .cSample } else s)

/-- The accumulator after a sample: HIGH keeps the bit, LOW clears it (41_conversion.md R106, R107). -/
def decideBit (l : Level) (b : Nat) (acc : BitVec 10) : Option (BitVec 10) :=
  match l with
  | .high => some acc
  | .low => if 2 ^ b ≤ acc.toNat then some (BitVec.ofNat 10 (acc.toNat - 2 ^ b)) else none

/-- After the sample for bit `b`: the next trial (41_conversion.md R106), or completion (R107). -/
def afterSample (acc : BitVec 10) (s : State) : State :=
  if s.bit = 0#4 then complete .ok (acc.setWidth 32) { s with acc := acc }
  else { s with acc := acc, seq := .cTrial, bit := s.bit - 1#4 }

/-- The sample step: one comparator read on `PIN`, one bit decided (41_conversion.md R106, R107). -/
def sampleStep (s : State) : Host.Outcome State Fault Refusal :=
  match decideBit (sample s.pin s).1 s.bit.toNat s.acc with
  | some acc => .next (afterSample acc (sample s.pin s).2)
  | none => .fault .accDoesNotFit

end Sys2Proof.Machine
end

