-- ==== Sys2Proof/Machine/Dispatch.lean ====
section
/-! DEFINITION. One arm for each command of spec/opcode_table.json. -/

namespace Sys2Proof.Machine

def exec (i : Instr) (s : State) : Host.Outcome State Fault Refusal :=
  match i with
  | .init => Sys2Proof.Machine.execInit s
  | .initp p => Sys2Proof.Machine.execInitp p s
  | .initpr p => Sys2Proof.Machine.execInitpr p s
  | .conv => Sys2Proof.Machine.execConv s
  | .setres => Sys2Proof.Machine.execSetres s
  | .setdly => Sys2Proof.Machine.execSetdly s
  | .getdly => Sys2Proof.Machine.execGetdly s
  | .getres => Sys2Proof.Machine.execGetres s
  | .setrescfg => Sys2Proof.Machine.execSetrescfg s

end Sys2Proof.Machine
end

