-- ==== Sys2Proof/Machine/Agents.lean ====
section
/-! DEFINITION. The steps of the agents (spec/00_scope.md R16, R17): host, engine, tick source and reset input. An
agent that has no step leaves the machine as it is. -/

namespace Sys2Proof.Machine

/-- The boot step (70_reset_and_hazards.md R134). -/
def bootStep (s : State) : State :=
  { construct Config.defaultPin .tenBit 60#32 s with rsp := 0#32, last := .ok, seq := .idle }

/-- The first engine step of an accepted command: decode, then the command's (first) step (30_encoding.md R67). -/
def executeCommand (s : State) : Host.Outcome State Fault Refusal :=
  match decode s.cmdl with
  | .ok i => exec i s
  | .error _ => .next (raiseIllegal s.cmdl s)

/-- One engine step, by sequencer phase (10_state.md R33); none while reset is asserted (70_reset_and_hazards.md R133)
and none in `IDLE`. -/
def engineStep (s : State) : Host.Outcome State Fault Refusal :=
  if s.inReset then .next s
  else
    match s.seq with
    | .boot => .next (bootStep s)
    | .idle => .next s
    | .exec => executeCommand s
    | .cTrial => trialStep s
    | .cSettle => settleStep s
    | .cSample => sampleStep s

/-- One tick (60_exceptions.md R127); none takes place while reset is asserted (70_reset_and_hazards.md R133). -/
def tickStep (s : State) : State :=
  if s.inReset then s
  else if s.seq = .cSettle ∧ s.scnt ≠ 0#32 then { s with scnt := s.scnt - 1#32 }
  else s

/-- One poll of `wait`: it ends once a read of `STATUS` shows `BUSY = 0` (30_encoding.md R73). -/
def pollStatus (s : State) : State :=
  if (statusWord s).getLsbD 0 then { s with program := .wait :: s.program } else s

/-- A host statement, taken off the program (30_encoding.md R73, 20_memory.md R45 to R51). -/
def hostStmt (st : HostStmt) (s : State) : State :=
  match st with
  | .write off width v => memWrite off width v s
  | .read off width name =>
    match memRead off width s with
    | some v => { s with names := bindName name v s.names }
    | none => raiseBusError off s
  | .wait => pollStatus s

/-- One host step: a held write completes once the engine is idle and until then the host has no step
(20_memory.md R51); else the next statement of the program. While reset is asserted an access is refused
(70_reset_and_hazards.md R133). -/
def hostStep (s : State) : Host.Outcome State Fault Refusal :=
  match s.held, s.program with
  | none, [] => .next s
  | some v, _ =>
    if s.inReset then .refused .accessDuringReset
    else .next (if s.seq = .idle then accept v { s with held := none } else s)
  | none, st :: rest =>
    if s.inReset then .refused .accessDuringReset
    else .next (hostStmt st { s with program := rest })

/-- The next turn, and the state after it was taken from the list or drawn (log entry 3). -/
def takeTurn (s : State) : Turn × State :=
  match s.turns with
  | t :: ts => (t, { s with turns := ts })
  | [] => (Config.freeTurn s.turnNo, { s with turnNo := s.turnNo + 1 })

/-- The step of the agent whose turn it is (00_scope.md R16). -/
def agentStep (t : Turn) (s : State) : Host.Outcome State Fault Refusal :=
  match t with
  | .host => hostStep s
  | .engine => engineStep s
  | .tick => .next (tickStep s)
  | .assertReset => .next (assertReset s)
  | .releaseReset => .next (releaseReset s)

/-- The command word as if just accepted, and the engine's turn next: the fetch of a machine that fetches nothing
(20_memory.md R62; log entry 1). -/
def placeCommand (w : Word) (s : State) : State :=
  { s with cmdl := w, seq := .exec, inReset := false, turns := .engine :: s.turns }

end Sys2Proof.Machine
end

