-- ==== Sys2Proof/Machine/Algorithm.lean ====
section
/-! DEFINITION. The conversion algorithm the source gives, on numbers and away from the engine's steps, for claims that
the engine carries it out ("the quoted algorithm governs": spec/41_conversion.md R102), and what claims say about
its levels and events. -/

namespace Sys2Proof.Machine

/-- One pass of R102's loop for each level read, the top bit first: with `ls` still to read after it, the bit index
is `ls.length`. The events it sends on pin `p`, and the accumulator it returns. -/
def algorithm (p : Pin) : Nat → List Level → List Event × Nat
  | acc, [] => ([], acc)
  | acc, l :: ls =>
    let rest := algorithm p (if l = .low then acc + 2 ^ ls.length - 2 ^ ls.length else acc + 2 ^ ls.length) ls
    (.duty (BitVec.ofNat 32 (acc + 2 ^ ls.length)) :: .read p l :: rest.1, rest.2)

/-- `Σ [l_b = HIGH] · 2^b` over the levels read, the top bit first (41_conversion.md R109). -/
def codeOf : List Level → Nat
  | [] => 0
  | l :: ls => (if l = .high then 2 ^ ls.length else 0) + codeOf ls

/-- The levels read in a list of events, in order. -/
def levelsRead : List Event → List Level
  | [] => []
  | .read _ l :: es => l :: levelsRead es
  | _ :: es => levelsRead es

/-- The duty counts sent in a list of events, in order. -/
def dutiesSent : List Event → List Word
  | [] => []
  | .duty n :: es => n :: dutiesSent es
  | _ :: es => dutiesSent es

/-- Every read in a list of events has the level that `f` gives for the last duty count before it; a read with no
duty count before it has the level `f` gives for `d`. -/
def readsFollow (f : Nat → Level) : Nat → List Event → Bool
  | _, [] => true
  | _, .duty n :: es => readsFollow f n.toNat es
  | d, .read _ l :: es => (l == f d) && readsFollow f d es
  | d, _ :: es => readsFollow f d es

/-- The mocked comparator that "reads HIGH exactly when the trial value is at most `T`" (41_conversion.md R113). -/
def thresholdMock (T : Int) (n : Nat) : Level := if (n : Int) ≤ T then .high else .low

end Sys2Proof.Machine
end

