-- ==== Sys2Proof/Machine/Assembly.lean ====
section
/-! DEFINITION. SARE-1 assembly: the expansions, the assembled form, the disassembly and the lines of a program
(spec/30_encoding.md R73 to R76). The host's own language; no step of the machine depends on it. -/

namespace Sys2Proof.Machine

/-! ### Expansions (R74) -/

/-- `wr ARG, v` (R73). -/
def wrArg (v : Nat) : HostStmt := .write 0x4#4 4 (BitVec.ofNat 32 v)

/-- `wr CMD, w` with the word of a command (R73). -/
def wrCmd (i : Instr) : HostStmt := .write 0x0#4 4 (encode i)

/-- `rd RSP -> name` (R73). -/
def rdRsp (name : Name) : HostStmt := .read 0x8#4 4 name

/-- The name that every expansion with a return code binds it to (R74). DESIGN CHOICE: 95_test_vectors.md P3 names two
of them `rc1` and `rc2`; the model keeps R74's `rc` (log entry 12). -/
def returnCode : Name := "rc".toList

/-- The bus statements a command statement stands for (R74). -/
def expand : CmdStmt → List HostStmt
  | .init => [wrCmd .init, .wait]
  | .initp p => [wrCmd (.initp (BitVec.ofNat 8 p)), .wait]
  | .initpr p r => [wrArg r, wrCmd (.initpr (BitVec.ofNat 8 p)), .wait, rdRsp returnCode]
  | .conv name => [wrCmd .conv, .wait, rdRsp name]
  | .setres r => [wrArg r, wrCmd .setres, .wait, rdRsp returnCode]
  | .setrescfg r => [wrArg r, wrCmd .setrescfg, .wait, rdRsp returnCode]
  | .setdly d => [wrArg d, wrCmd .setdly, .wait]
  | .getdly name => [wrCmd .getdly, .wait, rdRsp name]
  | .getres name => [wrCmd .getres, .wait, rdRsp name]

/-! ### The assembled form (R75) -/

/-- A bus transaction `(W or R, offset, value)` (R75): a write with its value and its four bytes, or a read with the
value it returned, none where it raised a bus error (20_memory.md R48; log entry 13). -/
inductive Transaction where
  | write (off : Offset) (v : Word) (bytes : List Byte)
  | read (off : Offset) (value : Option Word)
deriving DecidableEq, Repr

/-- The transaction of a write (R75). -/
def writeOf (off : Offset) (v : Word) : Transaction := .write off v (wordBytes v)

/-- The reads of one `wait`, for the values that reads return from then on: `(R, 0xC, s)` until `s[0] = 0` (R73), and
the values left; none where no value ends it. -/
def pollReads : List (Option Word) → Option (List Transaction × List (Option Word))
  | some v :: vs =>
    if v.getLsbD 0 then (pollReads vs).map fun r => (.read 0xC#4 (some v) :: r.1, r.2)
    else some ([.read 0xC#4 (some v)], vs)
  | _ => none

/-- The assembled form of a program (R75) for the values its reads return, in order; none where those values are too
few or too many for it. -/
def assembledForm : List HostStmt → List (Option Word) → Option (List Transaction)
  | [], vs => if vs = [] then some [] else none
  | .write off _ v :: p, vs => (assembledForm p vs).map (writeOf off v :: ·)
  | .read off _ _ :: p, vs =>
    match vs with
    | [] => none
    | v :: vs => (assembledForm p vs).map (.read off v :: ·)
  | .wait :: p, vs =>
    match pollReads vs with
    | none => none
    | some (polls, vs) => (assembledForm p vs).map (polls ++ ·)

/-- The values that the reads of a list of transactions returned, in order. -/
def repliesOf : List Transaction → List (Option Word)
  | [] => []
  | .write _ _ _ :: trs => repliesOf trs
  | .read _ v :: trs => v :: repliesOf trs

/-! ### Disassembly (R76) -/

def hexDigit (n : Nat) : Char := "0123456789ABCDEF".toList.getD n '0'

/-- Eight hexadecimal digits, the most significant first. -/
def hexWord (w : Word) : List Char :=
  [7, 6, 5, 4, 3, 2, 1, 0].map fun k => hexDigit (w.toNat / 16 ^ k % 16)

/-- The disassembly of a command word (R76). -/
def disassemble (w : Word) : List Char :=
  match decode w with
  | .ok .init => "INIT".toList
  | .ok (.initp p) => "INITP ".toList ++ Nat.toDigits 10 p.toNat
  | .ok (.initpr p) => "INITPR ".toList ++ Nat.toDigits 10 p.toNat
  | .ok .conv => "CONV".toList
  | .ok .setres => "SETRES".toList
  | .ok .setdly => "SETDLY".toList
  | .ok .getdly => "GETDLY".toList
  | .ok .getres => "GETRES".toList
  | .ok .setrescfg => "SETRESCFG".toList
  | .error _ => ".illegal 0x".toList ++ hexWord w

/-! ### Lines (R73) -/

def isBlankChar (c : Char) : Bool := c == ' ' || c == '\t'

/-- A token read so far, as a list of none or one. -/
def finishToken (cur : List Char) : List (List Char) := if cur = [] then [] else [cur.reverse]

/-- Tokens: a comma is one of its own, blanks separate, and `;` starts a comment (R73). -/
def tokensFrom : List Char → List Char → List (List Char)
  | cur, [] => finishToken cur
  | cur, c :: cs =>
    if c = ';' then finishToken cur
    else if isBlankChar c then finishToken cur ++ tokensFrom [] cs
    else if c = ',' then finishToken cur ++ [','] :: tokensFrom [] cs
    else tokensFrom (c :: cur) cs

/-- The value of a digit below `base`. -/
def digitValue (base : Nat) (c : Char) : Option Nat :=
  let v :=
    if '0' ≤ c ∧ c ≤ '9' then c.toNat - '0'.toNat
    else if 'a' ≤ c ∧ c ≤ 'f' then c.toNat - 'a'.toNat + 10
    else if 'A' ≤ c ∧ c ≤ 'F' then c.toNat - 'A'.toNat + 10
    else base
  if v < base then some v else none

def digitsValue (base : Nat) : Nat → List Char → Option Nat
  | acc, [] => some acc
  | acc, c :: cs =>
    match digitValue base c with
    | some d => digitsValue base (acc * base + d) cs
    | none => none

/-- A decimal number, or a hexadecimal one with `0x` (R73). -/
def numberOf : List Char → Option Nat
  | [] => none
  | '0' :: 'x' :: c :: cs => digitsValue 16 0 (c :: cs)
  | cs => digitsValue 10 0 cs

/-- A resolution operand: a symbolic name or a number (R74). -/
def resolutionOf (t : List Char) : Option Nat :=
  if t = "EIGHT_BIT".toList then some 0
  else if t = "TEN_BIT".toList then some 1
  else numberOf t

/-- A name: a letter, then letters, digits and `_` (log entry 7). -/
def nameOf : List Char → Option Name
  | [] => none
  | c :: cs => if c.isAlpha && cs.all (fun d => d.isAlphanum || d == '_') then some (c :: cs) else none

/-- A bus statement (R73.1). -/
def busStmt : List (List Char) → Option HostStmt
  | [w] => if w = "wait".toList then some .wait else none
  | [op, r, m, x] =>
    if op = "wr".toList ∧ m = [','] then
      match numberOf x with
      | none => none
      | some v =>
        if !wordInRange v then none
        else if r = "ARG".toList then some (.write 0x4#4 4 (BitVec.ofNat 32 v))
        else if r = "CMD".toList then some (.write 0x0#4 4 (BitVec.ofNat 32 v))
        else none
    else if op = "rd".toList ∧ m = "->".toList then
      match nameOf x with
      | none => none
      | some n =>
        if r = "ARG".toList then some (.read 0x4#4 4 n)
        else if r = "RSP".toList then some (.read 0x8#4 4 n)
        else if r = "STATUS".toList then some (.read 0xC#4 4 n)
        else none
    else none
  | _ => none

/-- A command statement (R74). -/
def cmdStmt : List (List Char) → Option CmdStmt
  | [op] => if op = "INIT".toList then some .init else none
  | [op, x] =>
    if op = "INITP".toList then (numberOf x).map .initp
    else if op = "SETRES".toList then (resolutionOf x).map .setres
    else if op = "SETRESCFG".toList then (resolutionOf x).map .setrescfg
    else if op = "SETDLY".toList then (numberOf x).map .setdly
    else none
  | [op, m, x] =>
    if m = "->".toList then
      if op = "CONV".toList then (nameOf x).map .conv
      else if op = "GETDLY".toList then (nameOf x).map .getdly
      else if op = "GETRES".toList then (nameOf x).map .getres
      else none
    else none
  | [op, x, m, y] =>
    if op = "INITPR".toList ∧ m = [','] then
      match numberOf x, resolutionOf y with
      | some p, some r => some (.initpr p r)
      | _, _ => none
    else none
  | _ => none

/-- The bus statements of one line; none where the assembler refuses it (R73, R74). -/
def assembleLine (line : List Char) : Option (List HostStmt) :=
  match tokensFrom [] line with
  | [] => some []
  | ts =>
    match busStmt ts with
    | some b => some [b]
    | none =>
      match cmdStmt ts with
      | some c => if c.wellFormed then some (expand c) else none
      | none => none

/-- The bus statements of a program, one statement a line (R73). -/
def assemble : List (List Char) → Option (List HostStmt)
  | [] => some []
  | line :: lines =>
    match assembleLine line, assemble lines with
    | some a, some b => some (a ++ b)
    | _, _ => none

end Sys2Proof.Machine
end

