-- ==== Sys2Proof/Machine/Transactions.lean ====
section
/-! DEFINITION. The bus transactions that a run performs (spec/30_encoding.md R75, spec/95_test_vectors.md section 9),
read off its states. -/

namespace Sys2Proof.Machine

/-- The transaction that a host step in `s` completes. A held write completes once the engine is idle (20_memory.md
R51) and is listed then (log entry 13); each poll of `wait` is a read of `STATUS` (30_encoding.md R73). -/
def hostTransaction (s : State) : Option Transaction :=
  match s.held, s.program with
  | some v, _ => if s.seq = .idle then some (writeOf 0x0#4 v) else none
  | none, [] => none
  | none, .write off width v :: _ => if (memWrite off width v s).held = none then some (writeOf off v) else none
  | none, .read off width _ :: _ => some (.read off (memRead off width s))
  | none, .wait :: _ => some (.read 0xC#4 (some (statusWord s)))

/-- The transaction that the next step completes; an asserted reset completes a held write (70_reset_and_hazards.md
R133). -/
def stepTransaction (s : State) : Option Transaction :=
  match (takeTurn s).1 with
  | .host => hostTransaction s
  | .assertReset => s.held.map (writeOf 0x0#4)
  | _ => none

/-- The transactions completed in `n` steps from `s`, up to the first that does not go on. -/
def transactionsOf : Nat → State → List Transaction
  | 0, _ => []
  | n + 1, s =>
    match step s with
    | .next t => (stepTransaction s).toList ++ transactionsOf n t
    | _ => []

/-- The statements the host has not completed: a held write, and then the rest of its program. -/
def outstanding (s : State) : List HostStmt :=
  match s.held with
  | some v => .write 0x0#4 4 v :: s.program
  | none => s.program

end Sys2Proof.Machine
end

