-- ==== Sys2Proof/Safety.lean ====
section
/-! DEFINITION. The end of a run, what is observed of it, the named launch premises (spec/70_reset_and_hazards.md R149
to R151), the invariant of the machine, and runs to the completion of a command. -/

namespace Sys2Proof.Machine

/-! ### The end of a run (R149, R150) -/

/-- "A run whose record is not empty is faulted" (R149). -/
def State.faulted (s : State) : Bool := !s.faults.isEmpty

/-- The run is final (R150). That the boot step has been taken follows from `SEQ = IDLE`. -/
def State.final (s : State) : Bool :=
  !s.inReset && s.seq == .idle && s.held == none && s.program == [] && !s.faulted

/-- What is observed of a final run (R150). -/
structure Observation where
  names : List (Name × Word)
  arg : Word
  rsp : Word
  status : Word
  hist : List Event
  res : Resolution
  delay : Word
  pin : Pin
deriving DecidableEq, Repr

/-- The observation of a state (R150): `ACC`, `BIT`, `SCNT`, `CMDL`, `OPL` and `BRES` are not observed. -/
def State.observe (s : State) : Observation where
  names := s.names
  arg := s.arg
  rsp := s.rsp
  status := statusWord s
  hist := s.hist
  res := s.res
  delay := s.delay
  pin := s.pin

/-! ### Named launch premises (R151) -/

/-- The five boot events (10_state.md section 5, 70_reset_and_hazards.md R134). -/
def bootEvents : List Event :=
  [.pinCfg Config.defaultPin, .freq 9370#32, .counts 1024#32, .duty (duty0 .tenBit), .mode .even]

/-- `clean_launch` (R151): the post-boot state of 10_state.md section 5. -/
def cleanLaunch (s : State) : Prop :=
  s.inReset = false ∧ s.seq = .idle ∧ statusWord s = 0#32 ∧ s.arg = 0#32 ∧ s.rsp = 0#32 ∧
  s.hist = bootEvents ∧ s.held = none ∧ s.faults = [] ∧
  s.res = .tenBit ∧ s.bres = .tenBit ∧ s.delay = 60#32 ∧ s.pin = Config.defaultPin ∧
  s.acc = 0#10 ∧ s.bit = 0#4 ∧ s.scnt = 0#32 ∧ s.cmdl = 0#32 ∧ s.opl = 0#32

/-- `bundle_consistent` (10_state.md R27, R151). -/
abbrev bundleConsistent (s : State) : Prop := s.res = s.bres

/-- `sane_delay` (R141, R151). -/
abbrev saneDelay (s : State) : Prop := 50 ≤ s.delay.toNat ∧ s.delay.toNat ≤ 500

/-- `fair_ticks` (60_exceptions.md R127, R151) of an order of turns: a tick always eventually arrives. -/
def fairTicks (turn : Nat → Turn) : Prop := ∀ n, ∃ m, n ≤ m ∧ turn m = .tick

/-- `settled_reads` (R151) of a list of events, for the level that each trial duty settles to. -/
def settledReads (settled : Nat → Level) (es : List Event) : Prop := readsFollow settled 0 es = true

/-! ### The invariant -/

/-- The value a projection has at the last event that has one. -/
def lastSent {α : Type} (f : Event → Option α) (es : List Event) : Option α := (es.filterMap f).getLast?

def pinCfgOf : Event → Option Pin
  | .pinCfg p => some p
  | _ => none

def freqOf : Event → Option Word
  | .freq hz => some hz
  | _ => none

def countsOf : Event → Option Word
  | .counts n => some n
  | _ => none

/-- During a conversion: `BIT` and `ACC` stay within the resolution (41_conversion.md R108), bits `b` down to 0 of
`ACC` are 0 before the trial, bit `b` is 1 and those below it 0 at the sample (R110), and `SCNT` counts down from
`DELAY` to 0 (R104, R105). -/
def conversionShape (s : State) : Prop :=
  match s.seq with
  | .cTrial =>
    s.bit.toNat ≤ top s.res ∧ s.acc.toNat < 2 ^ (top s.res + 1) ∧ s.acc.toNat % 2 ^ (s.bit.toNat + 1) = 0
  | .cSettle =>
    s.bit.toNat ≤ top s.res ∧ s.acc.toNat < 2 ^ (top s.res + 1) ∧
    s.acc.toNat % 2 ^ (s.bit.toNat + 1) = 2 ^ s.bit.toNat ∧ s.scnt.toNat ≤ s.delay.toNat
  | .cSample =>
    s.bit.toNat ≤ top s.res ∧ s.acc.toNat < 2 ^ (top s.res + 1) ∧
    s.acc.toNat % 2 ^ (s.bit.toNat + 1) = 2 ^ s.bit.toNat ∧ s.scnt = 0#32
  | _ => True

/-- While `SEQ = BOOT` every element but `ARG` holds its reset value (70_reset_and_hazards.md R136); the host may write
`ARG` once reset is released (10_state.md R38). -/
def bootShape (s : State) : Prop :=
  s.seq = .boot →
    s.res = .tenBit ∧ s.bres = .tenBit ∧ s.delay = 60#32 ∧ s.pin = Config.defaultPin ∧ s.acc = 0#10 ∧
    s.bit = 0#4 ∧ s.scnt = 0#32 ∧ s.cmdl = 0#32 ∧ s.opl = 0#32 ∧ s.rsp = 0#32 ∧ s.last = .ok ∧ s.ill = false

/-- While reset is asserted: `SEQ = BOOT`, `ARG` is 0 and no `CMD` write is held (70_reset_and_hazards.md R133, R136). -/
def resetShape (s : State) : Prop := s.inReset = true → s.seq = .boot ∧ s.held = none ∧ s.arg = 0#32

/-- After the boot step, the last `PinCfg` was for `PIN` and the last bundle was that of `BRES` (10_state.md R24, R27). -/
def portsShape (s : State) : Prop :=
  s.seq ≠ .boot →
    lastSent pinCfgOf s.hist = some s.pin ∧ lastSent freqOf s.hist = some (freq s.bres) ∧
    lastSent countsOf s.hist = some (counts s.bres)

/-- `LAST = ILLEGAL` only with `ILL` set, and `ILL` only with an illegal word in the run fault record
(60_exceptions.md R119, 70_reset_and_hazards.md R149). -/
def errorShape (s : State) : Prop :=
  (s.last = .illegal → s.ill = true) ∧ (s.ill = true → ∃ w, RunFault.illegalCommand w ∈ s.faults)

/-- The invariant of the machine. -/
structure Inv (s : State) : Prop where
  conversion : conversionShape s
  boot : bootShape s
  reset : resetShape s
  ports : portsShape s
  errors : errorShape s

/-! ### Runs to completion -/

/-- The first state that meets `stop`, if the run gets there within `n` steps and reset is not asserted on the way;
whichever agents took those steps. -/
def runUntil (stop : State → Bool) : Nat → State → Option State
  | 0, _ => none
  | n + 1, s =>
    if s.inReset then none
    else if stop s then some s
    else
      match step s with
      | .next t => runUntil stop n t
      | _ => none

/-- The completion of the command in progress: the first state in which the engine is idle (10_state.md R35). -/
def runToIdle : Nat → State → Option State := runUntil fun s => s.seq == .idle

/-- The sample of the trial in progress: the first state in which the comparator is about to be read. -/
def runToSample : Nat → State → Option State := runUntil fun s => s.seq == .cSample

/-- It is the engine's turn, and reset is not asserted. -/
abbrev engineNext (s : State) (ts : List Turn) : Prop := s.turns = .engine :: ts ∧ s.inReset = false

/-- It is the host's turn, nothing is held, `st` is its next statement, and reset is not asserted. -/
abbrev hostNext (s : State) (st : HostStmt) (rest : List HostStmt) (ts : List Turn) : Prop :=
  s.turns = .host :: ts ∧ s.inReset = false ∧ s.held = none ∧ s.program = st :: rest

/-- A conversion has been accepted and its start step comes next (20_memory.md R50, 41_conversion.md R103). -/
abbrev convAccepted (s : State) : Prop := s.inReset = false ∧ s.seq = .exec ∧ s.cmdl = 0x00000004#32

/-- The engine is in the trials of a conversion (10_state.md R31). -/
abbrev converting (s : State) : Prop := s.seq = .cTrial ∨ s.seq = .cSettle ∨ s.seq = .cSample

/-- The four events of a bundle, in order (40_configuration.md R80, R81). -/
def bundleEvents : Resolution → List Event
  | .eightBit =>
    [.freq 37500#32, .counts 256#32, .duty (Config.initDutyEightBit.setWidth 32), .mode .even]
  | .tenBit =>
    [.freq 9370#32, .counts 1024#32, .duty (Config.initDutyTenBit.setWidth 32), .mode .even]

/-- The turns of one conversion that waits out exactly `d` ticks in each of `n` trials: start, then trial, ticks,
settle and sample for each bit. -/
def trialTurns (d : Nat) : Nat → List Turn
  | 0 => []
  | n + 1 => .engine :: (List.replicate d .tick ++ .engine :: .engine :: trialTurns d n)

/-- The engine and tick turns of one whole conversion. -/
def conversionTurns (r : Resolution) (d : Nat) : List Turn := .engine :: trialTurns d (top r + 1)

end Sys2Proof.Machine
end

