-- ==== Sys2Proof/Certificates/Slice0/Obligations.lean ====
section
/-! DEFINITION. The statements for the provers, from the numbered rules of spec/. -/

open Sys2Proof Sys2Proof.Machine

/-! ### Encoding -/

/-- Decoding an encoded command gives it back, from the word and from its bytes, and each legal word is the encoding
of the command it decodes to (30_encoding.md R66, R67). -/
def Obligations.DecodeAndEncodeAgree : Prop :=
  (∀ i : Instr, decode (encode i) = .ok i ∧
    ∀ rest : List Byte, decodeBytes (wordBytes (encode i) ++ rest) = .ok (i, rest)) ∧
  ∀ (w : Word) (i : Instr), decode w = .ok i → encode i = w

/-- The illegal words are those with a reserved opcode, a 1 in a reserved bit, or a pin without a pin form, and each
has the effects of R119 and no other (30_encoding.md R69). -/
def Obligations.IllegalWordsAndTheirEffects : Prop :=
  (∀ w : Word, (∃ e, decode w = .error e) ↔
    (w.toNat % 16 = 0 ∨ 10 ≤ w.toNat % 16 ∨ w.toNat / 65536 ≠ 0 ∨ w.toNat / 16 % 16 ≠ 0 ∨
      (w.toNat / 256 % 256 ≠ 0 ∧ w.toNat % 16 ≠ 2 ∧ w.toNat % 16 ≠ 3))) ∧
  ∀ (s : State) (ts : List Turn) (e : Illegal), engineNext s ts → s.seq = .exec → decode s.cmdl = .error e →
    step s = .next { s with
      turns := ts, last := .illegal, ill := true, seq := .idle,
      faults := s.faults ++ [.illegalCommand s.cmdl] }

/-- Exactly 519 words are legal: seven fixed ones, and 256 of each pin form (30_encoding.md R71). -/
def Obligations.ExactlyFiveHundredNineteenLegalWords : Prop :=
  (∃ l : List Word, l.Nodup ∧ l.length = 519 ∧ ∀ w : Word, w ∈ l ↔ ∃ i, decode w = .ok i) ∧
  ∀ w : Word, (∃ i, decode w = .ok i) ↔
    (w.toNat ∈ [1, 4, 5, 6, 7, 8, 9] ∨ ∃ p : Pin, w.toNat = 256 * p.toNat + 2 ∨ w.toNat = 256 * p.toNat + 3)

/-- Words written out from the opcode map and the decode vectors (95_test_vectors.md section 2). -/
def Obligations.TableWordsDecode : Prop :=
  decode 0x00000001#32 = .ok .init ∧ decode 0x0000FF02#32 = .ok (.initp 255#8) ∧
  decode 0x00001103#32 = .ok (.initpr 17#8) ∧ decode 0x00000004#32 = .ok .conv ∧
  decode 0x00000005#32 = .ok .setres ∧ decode 0x00000006#32 = .ok .setdly ∧
  decode 0x00000007#32 = .ok .getdly ∧ decode 0x00000008#32 = .ok .getres ∧
  decode 0x00000009#32 = .ok .setrescfg ∧ decode 0x00000000#32 = .error .reservedOpcode ∧
  decode 0x00000104#32 = .error .misplacedPin ∧ decode 0x80000004#32 = .error .reservedBits

/-! ### The step -/

/-- The engine's step in `EXEC` is the meaning of the decoded command, at the state with the turn taken
(30_encoding.md R67), and a placed command word is the one the next step runs (the model's choice, log entry 1). -/
def Obligations.EngineStepRunsDecodedCommand : Prop :=
  (∀ (s : State) (ts : List Turn) (i : Instr), engineNext s ts → s.seq = .exec → decode s.cmdl = .ok i →
    step s = exec i { s with turns := ts }) ∧
  ∀ (s : State) (i : Instr),
    step (s.withFetchWord 32 (encode i).toNat) =
      exec i { s with cmdl := encode i, seq := .exec, inReset := false }

/-! ### Reset and boot -/

/-- The reset values; the boot step writes `RES`, `BRES`, `DELAY` and `PIN` again with the same values and leaves the
state of `clean_launch` (70_reset_and_hazards.md R136, R151). -/
def Obligations.ResetValues : Prop :=
  State.reset.acc = 0#10 ∧ State.reset.bit = 0#4 ∧ State.reset.scnt = 0#32 ∧ State.reset.cmdl = 0#32 ∧
  State.reset.opl = 0#32 ∧ State.reset.arg = 0#32 ∧ State.reset.rsp = 0#32 ∧
  statusWord State.reset = 0x00000001#32 ∧ State.reset.seq = .boot ∧ State.reset.res = .tenBit ∧
  State.reset.bres = .tenBit ∧ State.reset.delay = 60#32 ∧ State.reset.pin = Config.defaultPin ∧
  ∃ t, step { State.reset with turns := [.engine] } = .next t ∧ t.res = State.reset.res ∧
    t.bres = State.reset.bres ∧ t.delay = State.reset.delay ∧ t.pin = State.reset.pin ∧
    cleanLaunch t

/-- Asserting reset gives every element its reset value from any state, abandons the command in progress and ends a
held write with a bus error; while it is asserted every element holds its reset value, `BUSY` reads 1, no engine step
and no tick takes place, and a host access is refused (70_reset_and_hazards.md R133, R136). The history and the run
fault record stay (10_state.md R21, 70_reset_and_hazards.md R149). That the bus error carries the address of `CMD` is
the model's reading (log entry 6). -/
def Obligations.AssertedReset : Prop :=
  ∀ (s : State) (ts : List Turn),
    (s.turns = .assertReset :: ts →
      step s = .next { State.reset with
        inReset := true, hist := s.hist, names := s.names, program := s.program, turns := ts,
        turnNo := s.turnNo, levels := s.levels, draws := s.draws,
        faults := s.faults ++ if s.held.isSome then [.busError Config.base] else [] }) ∧
    (s.inReset = true → Inv s →
      s.seq = .boot ∧ statusWord s = 0x00000001#32 ∧ s.res = .tenBit ∧ s.bres = .tenBit ∧ s.delay = 60#32 ∧
      s.pin = Config.defaultPin ∧ s.acc = 0#10 ∧ s.bit = 0#4 ∧ s.scnt = 0#32 ∧ s.cmdl = 0#32 ∧ s.opl = 0#32 ∧
      s.arg = 0#32 ∧ s.rsp = 0#32) ∧
    (s.inReset = true → s.turns = .engine :: ts ∨ s.turns = .tick :: ts → step s = .next { s with turns := ts }) ∧
    (s.inReset = true → s.turns = .host :: ts → s.program ≠ [] → step s = .refused .accessDuringReset)

/-- The boot step performs the default construction (70_reset_and_hazards.md R134). -/
def Obligations.BootStep : Prop :=
  ∀ (s : State) (ts : List Turn), engineNext s ts → s.seq = .boot →
    step s = .next { s with
      turns := ts, pin := Config.defaultPin, res := .tenBit, delay := 60#32, bres := .tenBit,
      rsp := 0#32, last := .ok, seq := .idle,
      hist := s.hist ++ .pinCfg Config.defaultPin :: bundleEvents .tenBit }

/-- A reset from any state, a conversion's trials among them, adds only the boot events, and leaves no response and no
bit decided (70_reset_and_hazards.md R135). -/
def Obligations.ResetAbandonsTheCommand : Prop :=
  ∀ (s : State) (ts : List Turn), s.turns = .assertReset :: .releaseReset :: .engine :: ts →
    ∃ t, Host.Core.run core 3 s = .next t ∧ t.hist = s.hist ++ bootEvents ∧ t.acc = 0#10 ∧ t.rsp = 0#32 ∧
      t.seq = .idle ∧ t.res = .tenBit ∧ t.bres = .tenBit ∧ t.delay = 60#32 ∧ t.pin = Config.defaultPin ∧
      statusWord t = 0#32 ∧ t.held = none

/-! ### The register window -/

/-- A legal read binds the register's value and changes nothing else; an access of another width, alignment or
direction is a bus error (20_memory.md R45), which the run fault record keeps (70_reset_and_hazards.md R149). That the
host then goes on with its next statement is the model's choice (log entry 6). -/
def Obligations.BusRead : Prop :=
  ∀ (s : State) (off : Offset) (n : Nat) (name : Name) (rest : List HostStmt) (ts : List Turn),
    hostNext s (.read off n name) rest ts →
    ∃ t, step s = .next t ∧
      if n ≠ 4 ∨ (Config.base + off.toNat) % 4 ≠ 0 ∨ off = 0x0#4 then
        t = { s with
          turns := ts, program := rest, faults := s.faults ++ [.busError (Config.base + off.toNat)] }
      else
        t = { s with turns := ts, program := rest, names := t.names } ∧
        (∀ m, m ≠ name → lookupName m t.names = lookupName m s.names) ∧
        lookupName name t.names = some (
          if off = 0x4#4 then s.arg
          else if off = 0x8#4 then s.rsp
          else BitVec.ofNat 32 ((if s.ill then 8 else 0) +
            2 * (match s.last with | .ok => 0 | .errRes => 1 | .illegal => 2) +
            (if s.seq = .idle then 0 else 1)))

/-- A write of `ARG` never waits, a write of `CMD` is accepted or held, any other write is a bus error
(20_memory.md R47, R50, R51), which the run fault record keeps (70_reset_and_hazards.md R149). That the host then goes
on with its next statement is the model's choice (log entry 6). -/
def Obligations.BusWrite : Prop :=
  ∀ (s : State) (off : Offset) (n : Nat) (v : Word) (rest : List HostStmt) (ts : List Turn),
    hostNext s (.write off n v) rest ts →
    step s = .next (
      if n ≠ 4 ∨ (Config.base + off.toNat) % 4 ≠ 0 ∨ off = 0x8#4 ∨ off = 0xC#4 then
        { s with
          turns := ts, program := rest, faults := s.faults ++ [.busError (Config.base + off.toNat)] }
      else if off = 0x4#4 then { s with turns := ts, program := rest, arg := v }
      else if s.seq = .idle then
        { s with turns := ts, program := rest, cmdl := v, opl := s.arg, seq := .exec }
      else { s with turns := ts, program := rest, held := some v })

/-- A bus error changes no state of SARE and emits nothing, and a read that raises it binds no name: whenever a step
adds one to the run fault record outside reset, everything but the record, the turn and the host's own position is as
before, and the state is not final (20_memory.md R48, 70_reset_and_hazards.md R149). That the host's position is then
its next statement is the model's choice (log entry 6). -/
def Obligations.BusErrorChangesNothing : Prop :=
  ∀ (s s' : State) (a : Nat), step s = .next s' → s'.inReset = false →
    s'.faults = s.faults ++ [.busError a] →
    s' = { s with
      faults := s'.faults, turns := s'.turns, turnNo := s'.turnNo, program := s.program.tail } ∧
    s'.final = false

/-- A write to `CMD` in `IDLE` is accepted in one host step: the word and `ARG` are latched and `BUSY` reads 1
(20_memory.md R50). -/
def Obligations.CommandAcceptance : Prop :=
  ∀ (s : State) (v : Word) (rest : List HostStmt) (ts : List Turn),
    hostNext s (.write 0x0#4 4 v) rest ts → s.seq = .idle →
    ∃ t, step s = .next t ∧ (statusWord t).getLsbD 0 = true ∧
      t = { s with turns := ts, program := rest, cmdl := v, opl := s.arg, seq := .exec }

/-- A `CMD` write is held unless the engine is idle. It stays held, and its host takes no further step, through every
step of every agent but the host step that completes it in `IDLE`, with `ARG` as it stands then, and an asserted
reset; the first host turn in `IDLE` completes it (20_memory.md R51, 70_reset_and_hazards.md R133). That it completes
in a turn of the host (log entry 11), and that its bus error at reset carries the address of `CMD` (log entry 6), are
the model's readings. -/
def Obligations.HeldWriteWaitsForIdle : Prop :=
  (∀ (s : State) (v : Word) (rest : List HostStmt) (ts : List Turn),
    hostNext s (.write 0x0#4 4 v) rest ts → s.seq ≠ .idle →
    step s = .next { s with turns := ts, program := rest, held := some v }) ∧
  (∀ (s s' : State) (v : Word), s.held = some v → step s = .next s' →
    (s'.held = some v ∧ s'.program = s.program ∧ s'.names = s.names ∧ s'.arg = s.arg) ∨
    (s.seq = .idle ∧ s' = { s with
      held := none, cmdl := v, opl := s.arg, seq := .exec, turns := s'.turns, turnNo := s'.turnNo }) ∨
    (s'.held = none ∧ s'.inReset = true ∧ s'.faults = s.faults ++ [.busError Config.base])) ∧
  ∀ (s : State) (v : Word) (ts : List Turn), s.held = some v → s.inReset = false → s.turns = .host :: ts →
    step s = .next (
      if s.seq = .idle then { s with turns := ts, held := none, cmdl := v, opl := s.arg, seq := .exec }
      else { s with turns := ts })

/-- Reading the same register twice with no other step in between gives the same value, and neither read changes
SARE's state or emits an event (20_memory.md R46). -/
def Obligations.ReadsAreIdempotent : Prop :=
  ∀ (s : State) (off : Offset) (a b : Name) (rest : List HostStmt) (ts : List Turn),
    hostNext s (.read off 4 a) (.read off 4 b :: rest) (.host :: ts) → a ≠ b →
    off = 0x4#4 ∨ off = 0x8#4 ∨ off = 0xC#4 →
    ∃ t, Host.Core.run core 2 s = .next t ∧ (lookupName a t.names).isSome ∧
      lookupName a t.names = lookupName b t.names ∧
      t = { s with turns := ts, program := rest, names := t.names }

/-- `BUSY` is 1 exactly when `SEQ` is not `IDLE`; `LAST` and `ILL` stand in their bits, `LAST` is never 3, and the
reserved bits read 0 (10_state.md R34, R35, R36). -/
def Obligations.StatusFields : Prop :=
  ∀ s : State,
    (statusWord s).getLsbD 0 = decide (s.seq ≠ .idle) ∧
    (statusWord s).extractLsb' 1 2 = (match s.last with | .ok => 0#2 | .errRes => 1#2 | .illegal => 2#2) ∧
    (statusWord s).extractLsb' 1 2 ≠ 3#2 ∧ (statusWord s).getLsbD 3 = s.ill ∧
    (statusWord s).extractLsb' 4 28 = 0#28

/-- The window is little-endian: byte `k` of a readable register holds its bits `8k+7` to `8k`, and no byte of `CMD`
can be read (20_memory.md R43). -/
def Obligations.LittleEndianWindow : Prop :=
  ∀ (s : State) (k : Nat), k < 4 →
    windowByte (BitVec.ofNat 4 k) s = none ∧
    windowByte (BitVec.ofNat 4 (4 + k)) s = some (s.arg.extractLsb' (8 * k) 8) ∧
    windowByte (BitVec.ofNat 4 (8 + k)) s = some (s.rsp.extractLsb' (8 * k) 8) ∧
    windowByte (BitVec.ofNat 4 (12 + k)) s = some ((statusWord s).extractLsb' (8 * k) 8)

/-! ### Configuration commands -/

/-- INIT (40_configuration.md R82): its encoding and its whole effect. -/
def Obligations.InitEffect : Prop :=
  decode 0x00000001#32 = .ok .init ∧
  ∀ s : State, exec .init s = .next { s with
    pin := Config.defaultPin, res := .tenBit, delay := 60#32, bres := .tenBit,
    hist := s.hist ++ .pinCfg Config.defaultPin :: bundleEvents .tenBit,
    rsp := 0#32, last := .ok, seq := .idle }

/-- INITP p (40_configuration.md R83): its encoding and its whole effect, which for `DEFAULT_PIN` is INIT's. -/
def Obligations.InitpEffect : Prop :=
  (∀ p : Pin, decode (0x0000#16 ++ p ++ 0x02#8) = .ok (.initp p)) ∧
  (∀ (s : State) (p : Pin), exec (.initp p) s = .next { s with
    pin := p, res := .tenBit, delay := 60#32, bres := .tenBit,
    hist := s.hist ++ .pinCfg p :: bundleEvents .tenBit, rsp := 0#32, last := .ok, seq := .idle }) ∧
  ∀ s : State, exec (.initp Config.defaultPin) s = exec .init s

/-- INITPR p, a (40_configuration.md R84): its encoding and its whole effect for every operand, an unrecognized one
too. -/
def Obligations.InitprEffect : Prop :=
  (∀ p : Pin, decode (0x0000#16 ++ p ++ 0x03#8) = .ok (.initpr p)) ∧
  ∀ (s : State) (p : Pin),
    (∀ r : Resolution, s.opl = (match r with | .eightBit => 0#32 | .tenBit => 1#32) →
      exec (.initpr p) s = .next { s with
        pin := p, res := r, delay := 69#32, bres := r, hist := s.hist ++ .pinCfg p :: bundleEvents r,
        rsp := 0#32, last := .ok, seq := .idle }) ∧
    (s.opl ≠ 0#32 → s.opl ≠ 1#32 →
      exec (.initpr p) s = .next { s with rsp := 1#32, last := .errRes, seq := .idle })

/-- SETRES a (40_configuration.md R85): its encoding and its whole effect for every operand; the bundle is not
applied. -/
def Obligations.SetresEffect : Prop :=
  decode 0x00000005#32 = .ok .setres ∧
  ∀ s : State,
    (s.opl = 0#32 → exec .setres s = .next { s with res := .eightBit, rsp := 0#32, last := .ok, seq := .idle }) ∧
    (s.opl = 1#32 → exec .setres s = .next { s with res := .tenBit, rsp := 0#32, last := .ok, seq := .idle }) ∧
    (s.opl ≠ 0#32 → s.opl ≠ 1#32 →
      exec .setres s = .next { s with rsp := 1#32, last := .errRes, seq := .idle })

/-- SETRESCFG a (40_configuration.md R86): its encoding and its whole effect for every operand; after a success the
bundle is consistent. -/
def Obligations.SetrescfgEffect : Prop :=
  decode 0x00000009#32 = .ok .setrescfg ∧
  ∀ s : State,
    (∀ r : Resolution, s.opl = (match r with | .eightBit => 0#32 | .tenBit => 1#32) →
      ∃ t, exec .setrescfg s = .next t ∧ bundleConsistent t ∧
        t = { s with
          res := r, bres := r, hist := s.hist ++ bundleEvents r, rsp := 0#32, last := .ok, seq := .idle }) ∧
    (s.opl ≠ 0#32 → s.opl ≠ 1#32 →
      exec .setrescfg s = .next { s with rsp := 1#32, last := .errRes, seq := .idle })

/-- SETDLY a (40_configuration.md R87): its encoding and its whole effect; every value is stored. -/
def Obligations.SetdlyEffect : Prop :=
  decode 0x00000006#32 = .ok .setdly ∧
  ∀ s : State, exec .setdly s = .next { s with delay := s.opl, rsp := 0#32, last := .ok, seq := .idle }

/-- GETDLY and GETRES (40_configuration.md R88, R89, R90): their encodings, and they write only `RSP`, `LAST` and
`SEQ`. -/
def Obligations.AccessorsEffect : Prop :=
  decode 0x00000007#32 = .ok .getdly ∧ decode 0x00000008#32 = .ok .getres ∧
  ∀ s : State,
    exec .getdly s = .next { s with rsp := s.delay, last := .ok, seq := .idle } ∧
    exec .getres s = .next { s with
      rsp := (match s.res with | .eightBit => 0#32 | .tenBit => 1#32), last := .ok, seq := .idle }

/-- An unrecognized resolution changes nothing but `RSP`, `LAST` and `SEQ`, and is not sticky: the next completion
overwrites `LAST` (60_exceptions.md R118). -/
def Obligations.ErrResEffect : Prop :=
  ∀ (s : State) (p : Pin),
    (s.opl ≠ 0#32 → s.opl ≠ 1#32 → ∀ i ∈ [Instr.initpr p, .setres, .setrescfg],
      exec i s = .next { s with rsp := 1#32, last := .errRes, seq := .idle }) ∧
    (∀ i : Instr, i ∉ [Instr.initpr p, .setres, .setrescfg] → (∀ q, i ≠ .initpr q) → i ≠ .conv →
      ∃ t, exec i s = .next t ∧ t.last = .ok) ∧
    (s.opl = 0#32 ∨ s.opl = 1#32 → ∀ i ∈ [Instr.initpr p, .setres, .setrescfg],
      ∃ t, exec i s = .next t ∧ t.last = .ok)

/-- Every command but CONV completes in one engine step, and so does the boot sequence (70_reset_and_hazards.md
R147). -/
def Obligations.OneStepCommands : Prop :=
  (∀ (i : Instr) (s : State), i ≠ .conv → ∃ t, exec i s = .next t ∧ t.seq = .idle) ∧
  ∀ (s : State) (ts : List Turn), engineNext s ts → s.seq = .boot → ∃ t, step s = .next t ∧ t.seq = .idle

/-- The frame of all nine commands: what none of them changes, and which of them may change the rest
(40_configuration.md sections 3 and 4, 41_conversion.md R103). -/
def Obligations.CommandFrame : Prop :=
  ∀ (i : Instr) (s t : State), exec i s = .next t →
    t = { s with
      res := t.res, delay := t.delay, pin := t.pin, bres := t.bres, hist := t.hist, rsp := t.rsp,
      last := t.last, seq := t.seq, acc := t.acc, bit := t.bit } ∧
    (i ≠ .conv → t.acc = s.acc ∧ t.bit = s.bit) ∧
    (i = .conv → t.rsp = s.rsp ∧ t.last = s.last) ∧
    (i ∈ [.conv, .getdly, .getres] → t.res = s.res ∧ t.delay = s.delay) ∧
    (i ∈ [.conv, .getdly, .getres, .setdly, .setres] → t.bres = s.bres ∧ t.hist = s.hist) ∧
    (i ∈ [.conv, .getdly, .getres, .setdly, .setres, .setrescfg] → t.pin = s.pin) ∧
    (i = .setdly → t.res = s.res) ∧ (i ∈ [.setres, .setrescfg] → t.delay = s.delay)

/-! ### The steps of a conversion -/

/-- CONV's start step, which the engine step that decodes CONV performs (41_conversion.md R103). -/
def Obligations.ConversionStart : Prop :=
  (∀ s : State, exec .conv s = .next { s with
    acc := 0#10, seq := .cTrial, bit := (match s.res with | .eightBit => 7#4 | .tenBit => 9#4) }) ∧
  ∀ (s : State) (ts : List Turn), engineNext s ts → s.seq = .exec → decode s.cmdl = .ok .conv →
    step s = exec .conv { s with turns := ts }

/-- The trial step (41_conversion.md R104), in every state of the invariant. -/
def Obligations.TrialStep : Prop :=
  ∀ (s : State) (ts : List Turn), engineNext s ts → s.seq = .cTrial → Inv s →
    ∃ acc : BitVec 10, acc.toNat = s.acc.toNat + 2 ^ s.bit.toNat ∧
      step s = .next { s with
        turns := ts, acc := acc, hist := s.hist ++ [.duty (acc.setWidth 32)], scnt := s.delay, seq := .cSettle }

/-- The settle step (41_conversion.md R105): only once `SCNT` is 0. -/
def Obligations.SettleStep : Prop :=
  ∀ (s : State) (ts : List Turn), engineNext s ts → s.seq = .cSettle →
    step s = .next { s with turns := ts, seq := if s.scnt = 0#32 then .cSample else .cSettle }

/-- The sample step of a bit above 0 (41_conversion.md R106), in every state of the invariant: the level is the next
one the comparator answers. -/
def Obligations.SampleStep : Prop :=
  ∀ (s : State) (ts : List Turn), engineNext s ts → s.seq = .cSample → s.bit ≠ 0#4 → Inv s →
    ∃ (l : Level) (acc : BitVec 10) (b : BitVec 4), (s.levels ≠ [] → s.levels.head? = some l) ∧
      acc.toNat = (if l = .low then s.acc.toNat - 2 ^ s.bit.toNat else s.acc.toNat) ∧
      b.toNat + 1 = s.bit.toNat ∧
      step s = .next { s with
        turns := ts, acc := acc, bit := b, seq := .cTrial, hist := s.hist ++ [.read s.pin l],
        levels := s.levels.tail, draws := if s.levels = [] then s.draws + 1 else s.draws }

/-- The sample step of bit 0 completes the command with the code as its response (41_conversion.md R107), in every
state of the invariant. -/
def Obligations.LastSampleStep : Prop :=
  ∀ (s : State) (ts : List Turn), engineNext s ts → s.seq = .cSample → s.bit = 0#4 → Inv s →
    ∃ (l : Level) (acc : BitVec 10), (s.levels ≠ [] → s.levels.head? = some l) ∧
      acc.toNat = (if l = .low then s.acc.toNat - 1 else s.acc.toNat) ∧
      step s = .next { s with
        turns := ts, acc := acc, rsp := acc.setWidth 32, last := .ok, seq := .idle,
        hist := s.hist ++ [.read s.pin l],
        levels := s.levels.tail, draws := if s.levels = [] then s.draws + 1 else s.draws }

/-- A tick decrements `SCNT` in `C_SETTLE` and changes nothing in every other state (60_exceptions.md R127). -/
def Obligations.TickStep : Prop :=
  ∀ (s : State) (ts : List Turn), s.turns = .tick :: ts → s.inReset = false →
    (s.seq = .cSettle → s.scnt ≠ 0#32 →
      ∃ c : Word, c.toNat + 1 = s.scnt.toNat ∧ step s = .next { s with turns := ts, scnt := c }) ∧
    (s.seq ≠ .cSettle ∨ s.scnt = 0#32 → step s = .next { s with turns := ts })

/-! ### Invariants and whole-machine rules -/

/-- The invariant holds at reset. -/
def Obligations.ResetMeetsInv : Prop := Inv State.reset

/-- Every step of every agent keeps the invariant: the ranges of `ACC` and `BIT`, the bits of the accumulator, the
settle counter, the reset values while booting, the last bundle and pin sent, the sticky flag and its record. -/
def Obligations.EveryStepKeepsInv : Prop :=
  ∀ s s' : State, Inv s → step s = .next s' → Inv s'

/-- From every state of the invariant a step goes on, but for a host access while reset is asserted, which is refused
(70_reset_and_hazards.md R133): no step ends in a fault, since "a write of a value that does not fit the width is
never made by any rule" (00_scope.md R9). -/
def Obligations.StepStopsOnlyOnAccessDuringReset : Prop :=
  ∀ s : State, Inv s →
    (∃ t, step s = .next t) ∨
    (step s = .refused .accessDuringReset ∧ s.inReset = true ∧ (s.held ≠ none ∨ s.program ≠ []))

/-- `pc` moves only along the transitions of the table, or to its reset value; in `IDLE` the engine has no step
(10_state.md R33). -/
def Obligations.SequencerTransitions : Prop :=
  (∀ (s : State) (ts : List Turn), engineNext s ts → s.seq = .idle → step s = .next { s with turns := ts }) ∧
  ∀ s s' : State, step s = .next s' →
    (s'.seq = s.seq ∧ s'.bit = s.bit) ∨
    (s'.seq = .boot ∧ s'.bit = 0#4 ∧ s'.inReset = true) ∨
    (s'.bit = s.bit ∧
      ((s.seq = .boot ∧ s'.seq = .idle) ∨ (s.seq = .idle ∧ s'.seq = .exec) ∨
        (s.seq = .exec ∧ decode s.cmdl ≠ .ok .conv ∧ s'.seq = .idle) ∨
        (s.seq = .cTrial ∧ s'.seq = .cSettle) ∨ (s.seq = .cSettle ∧ s'.seq = .cSample) ∨
        (s.seq = .cSample ∧ s.bit = 0#4 ∧ s'.seq = .idle))) ∨
    (s.seq = .exec ∧ decode s.cmdl = .ok .conv ∧ s'.seq = .cTrial ∧ s'.bit.toNat = top s.res) ∨
    (s.seq = .cSample ∧ s'.seq = .cTrial ∧ s'.bit.toNat + 1 = s.bit.toNat)

/-- `RES`, `DELAY`, `PIN` and `BRES` cannot change during a conversion, except by reset (41_conversion.md R115). -/
def Obligations.ConfigurationFixedWhileConverting : Prop :=
  ∀ s s' : State, converting s → step s = .next s' →
    s'.inReset = true ∨
    (s'.res = s.res ∧ s'.delay = s.delay ∧ s'.pin = s.pin ∧ s'.bres = s.bres ∧ s'.cmdl = s.cmdl ∧ s'.opl = s.opl)

/-- The configuration changes only in the boot step, in the step of a command that writes it, and by reset
(10_state.md R20, R22, R24, R27). -/
def Obligations.ConfigurationWriters : Prop :=
  ∀ s s' : State, step s = .next s' →
    (s'.res = s.res ∧ s'.delay = s.delay ∧ s'.pin = s.pin ∧ s'.bres = s.bres) ∨ s'.inReset = true ∨ s.seq = .boot ∨
    (s.seq = .exec ∧ ∃ i, decode s.cmdl = .ok i ∧ i ≠ .conv ∧ i ≠ .getdly ∧ i ≠ .getres ∧
      (s'.res = s.res ∨ i ≠ .setdly) ∧ (s'.bres = s.bres ∨ (i ≠ .setdly ∧ i ≠ .setres)) ∧
      (s'.pin = s.pin ∨ (i ≠ .setdly ∧ i ≠ .setres ∧ i ≠ .setrescfg)) ∧
      (s'.delay = s.delay ∨ (i ≠ .setres ∧ i ≠ .setrescfg)))

/-- `ILL` is set by every illegal command, cleared by reset, and by nothing else (10_state.md R37). -/
def Obligations.IllegalFlagIsSticky : Prop :=
  (∀ s s' : State, s.ill = true → step s = .next s' → s'.ill = true ∨ (s'.seq = .boot ∧ s'.inReset = true)) ∧
  (∀ (s : State) (ts : List Turn) (e : Illegal), engineNext s ts → s.seq = .exec → decode s.cmdl = .error e →
    ∃ t, step s = .next t ∧ t.ill = true) ∧
  ∀ (s : State) (ts : List Turn), s.turns = .assertReset :: ts → ∃ t, step s = .next t ∧ t.ill = false

/-- Nothing removes an entry of the run fault record; a step adds at most one, a bus error or the illegal word in
`CMDL` (70_reset_and_hazards.md R149). -/
def Obligations.FaultRecordOnlyGrows : Prop :=
  ∀ s s' : State, step s = .next s' →
    s'.faults = s.faults ∨
    (∃ off : Offset, s'.faults = s.faults ++ [.busError (Config.base + off.toNat)]) ∨
    (s.seq = .exec ∧ (∃ e, decode s.cmdl = .error e) ∧ s'.faults = s.faults ++ [.illegalCommand s.cmdl] ∧
      s'.ill = true)

/-- The history only grows, and `Freq`, `Counts` and `Mode` are sent only as one whole bundle, in `BOOT` or by a
command (40_configuration.md R81, 10_state.md R26, 20_memory.md R55). -/
def Obligations.EventsOfAStep : Prop :=
  ∀ s s' : State, step s = .next s' →
    s'.hist = s.hist ∨
    ((s.seq = .boot ∨ s.seq = .exec) ∧
      (s'.hist = s.hist ++ .pinCfg s'.pin :: bundleEvents s'.bres ∨ s'.hist = s.hist ++ bundleEvents s'.bres) ∧
      s'.res = s'.bres) ∨
    (s.seq = .cTrial ∧ s'.hist = s.hist ++ [.duty (s'.acc.setWidth 32)]) ∨
    (s.seq = .cSample ∧ ∃ l : Level, s'.hist = s.hist ++ [.read s.pin l])

/-- Only a host write of `ARG` and reset change `ARG`; no command does (10_state.md R38). -/
def Obligations.OnlyHostWritesChangeArg : Prop :=
  ∀ s s' : State, step s = .next s' →
    s'.arg = s.arg ∨ s'.inReset = true ∨
    (s.held = none ∧ ∃ rest, s.program = .write 0x4#4 4 s'.arg :: rest ∧ s'.program = rest)

/-- Only the completion of a command, the boot step and reset change `RSP`; while a command executes it still holds
the previous response (10_state.md R39, 70_reset_and_hazards.md R140). -/
def Obligations.ResponseChangesOnlyAtCompletion : Prop :=
  ∀ s s' : State, step s = .next s' →
    s'.rsp = s.rsp ∨ s'.inReset = true ∨ (s.seq ≠ .idle ∧ s'.seq = .idle)

/-! ### Whole conversions, whichever agents step in between -/

/-- The engine carries out the source's algorithm (41_conversion.md R101, R102): a conversion accepted in `s` that
completes in `t` sent and read exactly the algorithm's events for the levels read, responds with what it returns,
and leaves the configuration and the sticky flag as they were. -/
def Obligations.ConversionRunsTheAlgorithm : Prop :=
  ∀ (n : Nat) (s t : State), convAccepted s → runToIdle n s = some t →
    ∃ ls : List Level, ls.length = top s.res + 1 ∧
      (s.levels.length ≥ ls.length → s.levels = ls ++ t.levels) ∧
      t.hist = s.hist ++ (algorithm s.pin 0 ls).1 ∧ t.rsp.toNat = (algorithm s.pin 0 ls).2 ∧
      t.acc.toNat = (algorithm s.pin 0 ls).2 ∧ t.last = .ok ∧ t.ill = s.ill ∧
      t.res = s.res ∧ t.delay = s.delay ∧ t.pin = s.pin ∧ t.bres = s.bres

/-- The bit decision law (41_conversion.md R109): the response is the sum of the bits read HIGH, and bit `b` of it is
1 exactly when the read for bit `b` was HIGH. -/
def Obligations.BitDecisionLaw : Prop :=
  ∀ (n : Nat) (s t : State), convAccepted s → runToIdle n s = some t →
    ∃ es : List Event, t.hist = s.hist ++ es ∧ t.rsp.toNat = codeOf (levelsRead es) ∧
      ∀ b : Nat, b ≤ top s.res →
        ((levelsRead es)[top s.res - b]? = some .high ↔ t.rsp.getLsbD b = true)

/-- Event count and order (41_conversion.md R111): one `Duty` and one `Read` for each bit, alternating, and no other
event. -/
def Obligations.ConversionEventOrder : Prop :=
  ∀ (n : Nat) (s t : State), convAccepted s → runToIdle n s = some t →
    ∃ es : List Event, t.hist = s.hist ++ es ∧ es.length = 2 * (top s.res + 1) ∧
      ∀ k : Nat, k ≤ top s.res →
        (∃ d : Word, es[2 * k]? = some (.duty d)) ∧ (∃ l : Level, es[2 * k + 1]? = some (.read s.pin l))

/-- Trial values (41_conversion.md R112, R116): the duty count sent for bit `b` is the response with bits `b` down to
0 cleared, plus `2^b`; the first is `2^top`, and the last, which the generator keeps, is the response with bit 0
set. -/
def Obligations.TrialValues : Prop :=
  ∀ (n : Nat) (s t : State), convAccepted s → runToIdle n s = some t →
    ∃ es : List Event, t.hist = s.hist ++ es ∧
      (∀ b : Nat, b ≤ top s.res →
        (dutiesSent es)[top s.res - b]? = some ((t.rsp >>> (b + 1) <<< (b + 1)) ||| BitVec.ofNat 32 (2 ^ b))) ∧
      (dutiesSent es).head? = some (BitVec.ofNat 32 (2 ^ top s.res)) ∧
      (dutiesSent es).getLast? = some (t.rsp ||| 1#32)

/-- Range (41_conversion.md R108): the response is at most `2^(top+1) - 1`, every duty count sent is between 1 and
that, and so is `ACC` at every step of the trials. -/
def Obligations.ConversionRange : Prop :=
  (∀ (n : Nat) (s t : State), convAccepted s → runToIdle n s = some t →
    t.rsp.toNat ≤ 2 ^ (top s.res + 1) - 1 ∧
    ∃ es : List Event, t.hist = s.hist ++ es ∧
      ∀ d ∈ dutiesSent es, 1 ≤ d.toNat ∧ d.toNat ≤ 2 ^ (top s.res + 1) - 1) ∧
  ∀ s : State, Inv s → converting s → s.acc.toNat ≤ 2 ^ (top s.res + 1) - 1

/-- The threshold law (41_conversion.md R113): with a comparator that reads HIGH exactly when the trial value is at
most `T`, the response is `T`, clamped to the code range. -/
def Obligations.ThresholdLaw : Prop :=
  ∀ (n : Nat) (s t : State) (T : Int) (es : List Event), convAccepted s → runToIdle n s = some t →
    t.hist = s.hist ++ es → readsFollow (thresholdMock T) 0 es = true →
    (t.rsp.toNat : Int) = max 0 (min T (2 ^ (top s.res + 1) - 1))

/-- The read of a trial comes after at least `DELAY` ticks following its duty write (41_conversion.md R105, R148). -/
def Obligations.TrialWaitsItsDelay : Prop :=
  ∀ (n : Nat) (s t : State) (used : List Turn), s.seq = .cTrial → runToSample n s = some t →
    s.turns = used ++ t.turns → t.turnNo = s.turnNo → s.delay.toNat ≤ used.count .tick

/-- Conversion latency (70_reset_and_hazards.md R146): at least `DELAY` ticks in each of the `top + 1` trials. -/
def Obligations.ConversionLatency : Prop :=
  ∀ (n : Nat) (s t : State) (used : List Turn), convAccepted s → runToIdle n s = some t →
    s.turns = used ++ t.turns → t.turnNo = s.turnNo → (top s.res + 1) * s.delay.toNat ≤ used.count .tick

/-- A conversion completes: given one engine turn for its start, and for each bit a trial, `DELAY` ticks, a settle and
a sample, it ends in the whole next state the rules give; its engine turns are `1 + 3 (top + 1)`
(41_conversion.md R101 to R107, 95_test_vectors.md section 5.1). -/
def Obligations.ConversionCompletes : Prop :=
  ∀ (s : State) (ls more : List Level) (ts : List Turn), convAccepted s → ls.length = top s.res + 1 →
    s.levels = ls ++ more → s.turns = conversionTurns s.res s.delay.toNat ++ ts →
    Host.Core.run core (conversionTurns s.res s.delay.toNat).length s = .next { s with
      turns := ts, levels := more, seq := .idle, bit := 0#4, scnt := 0#32,
      acc := BitVec.ofNat 10 (codeOf ls), rsp := BitVec.ofNat 32 (codeOf ls), last := .ok,
      hist := s.hist ++ (algorithm s.pin 0 ls).1 } ∧
    (conversionTurns s.res s.delay.toNat).count .engine = 1 + 3 * (top s.res + 1) ∧
    (conversionTurns s.res s.delay.toNat).count .tick = (top s.res + 1) * s.delay.toNat

/-! ### Progress -/

/-- From every state of the invariant with reset released, engine and tick steps alone reach `IDLE`: the engine never
hangs but for want of ticks (70_reset_and_hazards.md R150). -/
def Obligations.EngineCanAlwaysReachIdle : Prop :=
  ∀ s : State, Inv s → s.inReset = false →
    ∃ ts : List Turn, (∀ t ∈ ts, t = .engine ∨ t = .tick) ∧
      ∃ u, Host.Core.run core ts.length { s with turns := ts } = .next u ∧ u.seq = .idle ∧ u.inReset = false ∧
        u.program = s.program ∧ u.held = s.held

/-- Every host program can be run to its end: from every state of the invariant with reset released there are turns
of host, engine and ticks after which no statement is left, nothing is held and the engine is idle
(70_reset_and_hazards.md R150). A program with a bus error or an illegal command comes to its end too, as a faulted run:
that its host goes on after the error is the model's choice (log entry 6). -/
def Obligations.HostProgramCanFinish : Prop :=
  ∀ s : State, Inv s → s.inReset = false →
    ∃ ts : List Turn, (∀ t ∈ ts, t = .host ∨ t = .engine ∨ t = .tick) ∧
      ∃ u, Host.Core.run core ts.length { s with turns := ts } = .next u ∧ u.program = [] ∧ u.held = none ∧
        u.seq = .idle ∧ u.inReset = false

/-! ### Host programs -/

/-- `SETDLY d` and then `GETDLY -> name` binds `d`, for every 32-bit `d`, in one order of turns (30_encoding.md R74,
40_configuration.md R87, R88; 95_test_vectors.md S6). -/
def Obligations.SetdlyThenGetdly : Prop :=
  ∀ (s : State) (d : Nat) (name : Name) (rest : List HostStmt) (ts : List Turn), d < 2 ^ 32 →
    s.seq = .idle → s.inReset = false → s.held = none →
    s.program = expand (.setdly d) ++ expand (.getdly name) ++ rest →
    s.turns = [.host, .host, .engine, .host, .host, .engine, .host, .host] ++ ts →
    ∃ t, Host.Core.run core 8 s = .next t ∧ lookupName name t.names = some (BitVec.ofNat 32 d) ∧
      t.program = rest ∧ t.turns = ts ∧ t.seq = .idle ∧ t.hist = s.hist ∧ t.delay = BitVec.ofNat 32 d

/-- `SETRES v` and then `GETRES -> name`: for 0 and 1 the return code is 0 and GETRES reports `v`; for every other `v`
the return code is 1 and GETRES reports what it did before, in one order of turns (30_encoding.md R74,
40_configuration.md R85, R89; 95_test_vectors.md S1, S2). Where `name` is `rc` itself it ends with GETRES's value: that
binding a name again replaces its value is the model's reading (log entry 7). -/
def Obligations.SetresThenGetres : Prop :=
  ∀ (s : State) (v : Nat) (name : Name) (rest : List HostStmt) (ts : List Turn), v < 2 ^ 32 →
    s.seq = .idle → s.inReset = false → s.held = none →
    s.program = expand (.setres v) ++ expand (.getres name) ++ rest →
    s.turns = [.host, .host, .engine, .host, .host, .host, .engine, .host, .host] ++ ts →
    ∃ t, Host.Core.run core 9 s = .next t ∧ t.program = rest ∧ t.hist = s.hist ∧ t.bres = s.bres ∧
      (name ≠ returnCode → lookupName returnCode t.names = some (if v ≤ 1 then 0#32 else 1#32)) ∧
      lookupName name t.names =
        some (if v ≤ 1 then BitVec.ofNat 32 v else match s.res with | .eightBit => 0#32 | .tenBit => 1#32)

/-- Lines, their bus transactions with the bytes of each write and the value of each read, and disassemblies written
out in the spec (30_encoding.md R74 to R76, 95_test_vectors.md section 9, P2). -/
def Obligations.AssembledAndDisassembled : Prop :=
  (assembleLine "INITPR 17, EIGHT_BIT ; rc = 0".toList).bind
      (assembledForm · [some 1#32, some 1#32, some 0#32, some 0#32]) =
    some [.write 0x4#4 0#32 [0x00#8, 0x00#8, 0x00#8, 0x00#8],
      .write 0x0#4 0x00001103#32 [0x03#8, 0x11#8, 0x00#8, 0x00#8], .read 0xC#4 (some 1#32),
      .read 0xC#4 (some 1#32), .read 0xC#4 (some 0#32), .read 0x8#4 (some 0#32)] ∧
  assembleLine "SETDLY 0x64".toList = some [.write 0x4#4 4 100#32, .write 0x0#4 4 6#32, .wait] ∧
  assembleLine "INITP 256".toList = none ∧
  disassemble 0x00001103#32 = "INITPR 17".toList ∧ disassemble 0x0000FF02#32 = "INITP 255".toList ∧
  disassemble 0x00000104#32 = ".illegal 0x00000104".toList

/-- The transactions that a run performs until its host is done are the assembled form of its program (a write held at
the start first) for the values its reads returned: one write for each `wr`, one read for each `rd`, and for each `wait`
reads of `STATUS` of which only the last shows `BUSY = 0` (30_encoding.md R73, R75; 95_test_vectors.md section 9). When
a held write is listed, the missing value of a read that raises a bus error, and that the host goes on after one, are
the model's choices (log entries 6, 11 and 13). -/
def Obligations.TransactionsAreTheAssembledForm : Prop :=
  ∀ (n : Nat) (s t : State), Host.Core.run core n s = .next t → outstanding t = [] →
    assembledForm (outstanding s) (repliesOf (transactionsOf n s)) = some (transactionsOf n s)
end

