-- ==== Sys2Proof/Laws/State.lean ====
section
/-! SUPPORT. What each shared update does to each field of the state, one lemma per field. -/

namespace Sys2Proof.Machine

@[simp] theorem emit_res (e : Event) (s : State) : (emit e s).res = s.res := rfl
@[simp] theorem emit_delay (e : Event) (s : State) : (emit e s).delay = s.delay := rfl
@[simp] theorem emit_pin (e : Event) (s : State) : (emit e s).pin = s.pin := rfl
@[simp] theorem emit_bres (e : Event) (s : State) : (emit e s).bres = s.bres := rfl
@[simp] theorem emit_acc (e : Event) (s : State) : (emit e s).acc = s.acc := rfl
@[simp] theorem emit_bit (e : Event) (s : State) : (emit e s).bit = s.bit := rfl
@[simp] theorem emit_scnt (e : Event) (s : State) : (emit e s).scnt = s.scnt := rfl
@[simp] theorem emit_seq (e : Event) (s : State) : (emit e s).seq = s.seq := rfl
@[simp] theorem emit_cmdl (e : Event) (s : State) : (emit e s).cmdl = s.cmdl := rfl
@[simp] theorem emit_opl (e : Event) (s : State) : (emit e s).opl = s.opl := rfl
@[simp] theorem emit_arg (e : Event) (s : State) : (emit e s).arg = s.arg := rfl
@[simp] theorem emit_rsp (e : Event) (s : State) : (emit e s).rsp = s.rsp := rfl
@[simp] theorem emit_last (e : Event) (s : State) : (emit e s).last = s.last := rfl
@[simp] theorem emit_ill (e : Event) (s : State) : (emit e s).ill = s.ill := rfl
@[simp] theorem emit_hist (e : Event) (s : State) : (emit e s).hist = s.hist ++ [e] := rfl
@[simp] theorem emit_inReset (e : Event) (s : State) : (emit e s).inReset = s.inReset := rfl
@[simp] theorem emit_held (e : Event) (s : State) : (emit e s).held = s.held := rfl
@[simp] theorem emit_faults (e : Event) (s : State) : (emit e s).faults = s.faults := rfl
@[simp] theorem emit_program (e : Event) (s : State) : (emit e s).program = s.program := rfl
@[simp] theorem emit_names (e : Event) (s : State) : (emit e s).names = s.names := rfl
@[simp] theorem emit_turns (e : Event) (s : State) : (emit e s).turns = s.turns := rfl
@[simp] theorem emit_turnNo (e : Event) (s : State) : (emit e s).turnNo = s.turnNo := rfl
@[simp] theorem emit_levels (e : Event) (s : State) : (emit e s).levels = s.levels := rfl
@[simp] theorem emit_draws (e : Event) (s : State) : (emit e s).draws = s.draws := rfl

@[simp] theorem complete_res (c : Completion) (v : Word) (s : State) : (complete c v s).res = s.res := rfl
@[simp] theorem complete_delay (c : Completion) (v : Word) (s : State) : (complete c v s).delay = s.delay := rfl
@[simp] theorem complete_pin (c : Completion) (v : Word) (s : State) : (complete c v s).pin = s.pin := rfl
@[simp] theorem complete_bres (c : Completion) (v : Word) (s : State) : (complete c v s).bres = s.bres := rfl
@[simp] theorem complete_acc (c : Completion) (v : Word) (s : State) : (complete c v s).acc = s.acc := rfl
@[simp] theorem complete_bit (c : Completion) (v : Word) (s : State) : (complete c v s).bit = s.bit := rfl
@[simp] theorem complete_scnt (c : Completion) (v : Word) (s : State) : (complete c v s).scnt = s.scnt := rfl
@[simp] theorem complete_seq (c : Completion) (v : Word) (s : State) : (complete c v s).seq = .idle := rfl
@[simp] theorem complete_cmdl (c : Completion) (v : Word) (s : State) : (complete c v s).cmdl = s.cmdl := rfl
@[simp] theorem complete_opl (c : Completion) (v : Word) (s : State) : (complete c v s).opl = s.opl := rfl
@[simp] theorem complete_arg (c : Completion) (v : Word) (s : State) : (complete c v s).arg = s.arg := rfl
@[simp] theorem complete_rsp (c : Completion) (v : Word) (s : State) : (complete c v s).rsp = v := rfl
@[simp] theorem complete_last (c : Completion) (v : Word) (s : State) : (complete c v s).last = c := rfl
@[simp] theorem complete_ill (c : Completion) (v : Word) (s : State) : (complete c v s).ill = s.ill := rfl
@[simp] theorem complete_hist (c : Completion) (v : Word) (s : State) : (complete c v s).hist = s.hist := rfl
@[simp] theorem complete_inReset (c : Completion) (v : Word) (s : State) : (complete c v s).inReset = s.inReset := rfl
@[simp] theorem complete_held (c : Completion) (v : Word) (s : State) : (complete c v s).held = s.held := rfl
@[simp] theorem complete_faults (c : Completion) (v : Word) (s : State) : (complete c v s).faults = s.faults := rfl
@[simp] theorem complete_program (c : Completion) (v : Word) (s : State) : (complete c v s).program = s.program := rfl
@[simp] theorem complete_names (c : Completion) (v : Word) (s : State) : (complete c v s).names = s.names := rfl
@[simp] theorem complete_turns (c : Completion) (v : Word) (s : State) : (complete c v s).turns = s.turns := rfl
@[simp] theorem complete_turnNo (c : Completion) (v : Word) (s : State) : (complete c v s).turnNo = s.turnNo := rfl
@[simp] theorem complete_levels (c : Completion) (v : Word) (s : State) : (complete c v s).levels = s.levels := rfl
@[simp] theorem complete_draws (c : Completion) (v : Word) (s : State) : (complete c v s).draws = s.draws := rfl

@[simp] theorem applyBundle_res (r : Resolution) (s : State) : (applyBundle r s).res = s.res := rfl
@[simp] theorem applyBundle_delay (r : Resolution) (s : State) : (applyBundle r s).delay = s.delay := rfl
@[simp] theorem applyBundle_pin (r : Resolution) (s : State) : (applyBundle r s).pin = s.pin := rfl
@[simp] theorem applyBundle_bres (r : Resolution) (s : State) : (applyBundle r s).bres = r := rfl
@[simp] theorem applyBundle_acc (r : Resolution) (s : State) : (applyBundle r s).acc = s.acc := rfl
@[simp] theorem applyBundle_bit (r : Resolution) (s : State) : (applyBundle r s).bit = s.bit := rfl
@[simp] theorem applyBundle_scnt (r : Resolution) (s : State) : (applyBundle r s).scnt = s.scnt := rfl
@[simp] theorem applyBundle_seq (r : Resolution) (s : State) : (applyBundle r s).seq = s.seq := rfl
@[simp] theorem applyBundle_cmdl (r : Resolution) (s : State) : (applyBundle r s).cmdl = s.cmdl := rfl
@[simp] theorem applyBundle_opl (r : Resolution) (s : State) : (applyBundle r s).opl = s.opl := rfl
@[simp] theorem applyBundle_arg (r : Resolution) (s : State) : (applyBundle r s).arg = s.arg := rfl
@[simp] theorem applyBundle_rsp (r : Resolution) (s : State) : (applyBundle r s).rsp = s.rsp := rfl
@[simp] theorem applyBundle_last (r : Resolution) (s : State) : (applyBundle r s).last = s.last := rfl
@[simp] theorem applyBundle_ill (r : Resolution) (s : State) : (applyBundle r s).ill = s.ill := rfl
@[simp] theorem applyBundle_hist (r : Resolution) (s : State) :
    (applyBundle r s).hist = s.hist ++ bundle r := rfl
@[simp] theorem applyBundle_inReset (r : Resolution) (s : State) : (applyBundle r s).inReset = s.inReset := rfl
@[simp] theorem applyBundle_held (r : Resolution) (s : State) : (applyBundle r s).held = s.held := rfl
@[simp] theorem applyBundle_faults (r : Resolution) (s : State) : (applyBundle r s).faults = s.faults := rfl
@[simp] theorem applyBundle_program (r : Resolution) (s : State) : (applyBundle r s).program = s.program := rfl
@[simp] theorem applyBundle_names (r : Resolution) (s : State) : (applyBundle r s).names = s.names := rfl
@[simp] theorem applyBundle_turns (r : Resolution) (s : State) : (applyBundle r s).turns = s.turns := rfl
@[simp] theorem applyBundle_turnNo (r : Resolution) (s : State) : (applyBundle r s).turnNo = s.turnNo := rfl
@[simp] theorem applyBundle_levels (r : Resolution) (s : State) : (applyBundle r s).levels = s.levels := rfl
@[simp] theorem applyBundle_draws (r : Resolution) (s : State) : (applyBundle r s).draws = s.draws := rfl

@[simp] theorem construct_res (p : Pin) (r : Resolution) (d : Word) (s : State) : (construct p r d s).res = r := rfl
@[simp] theorem construct_delay (p : Pin) (r : Resolution) (d : Word) (s : State) :
    (construct p r d s).delay = d := rfl
@[simp] theorem construct_pin (p : Pin) (r : Resolution) (d : Word) (s : State) : (construct p r d s).pin = p := rfl
@[simp] theorem construct_bres (p : Pin) (r : Resolution) (d : Word) (s : State) : (construct p r d s).bres = r := rfl
@[simp] theorem construct_acc (p : Pin) (r : Resolution) (d : Word) (s : State) :
    (construct p r d s).acc = s.acc := rfl
@[simp] theorem construct_bit (p : Pin) (r : Resolution) (d : Word) (s : State) :
    (construct p r d s).bit = s.bit := rfl
@[simp] theorem construct_scnt (p : Pin) (r : Resolution) (d : Word) (s : State) :
    (construct p r d s).scnt = s.scnt := rfl
@[simp] theorem construct_seq (p : Pin) (r : Resolution) (d : Word) (s : State) :
    (construct p r d s).seq = s.seq := rfl
@[simp] theorem construct_cmdl (p : Pin) (r : Resolution) (d : Word) (s : State) :
    (construct p r d s).cmdl = s.cmdl := rfl
@[simp] theorem construct_opl (p : Pin) (r : Resolution) (d : Word) (s : State) :
    (construct p r d s).opl = s.opl := rfl
@[simp] theorem construct_arg (p : Pin) (r : Resolution) (d : Word) (s : State) :
    (construct p r d s).arg = s.arg := rfl
@[simp] theorem construct_rsp (p : Pin) (r : Resolution) (d : Word) (s : State) :
    (construct p r d s).rsp = s.rsp := rfl
@[simp] theorem construct_last (p : Pin) (r : Resolution) (d : Word) (s : State) :
    (construct p r d s).last = s.last := rfl
@[simp] theorem construct_ill (p : Pin) (r : Resolution) (d : Word) (s : State) :
    (construct p r d s).ill = s.ill := rfl
@[simp] theorem construct_hist (p : Pin) (r : Resolution) (d : Word) (s : State) :
    (construct p r d s).hist = s.hist ++ [.pinCfg p] ++ bundle r := rfl
@[simp] theorem construct_inReset (p : Pin) (r : Resolution) (d : Word) (s : State) :
    (construct p r d s).inReset = s.inReset := rfl
@[simp] theorem construct_held (p : Pin) (r : Resolution) (d : Word) (s : State) :
    (construct p r d s).held = s.held := rfl
@[simp] theorem construct_faults (p : Pin) (r : Resolution) (d : Word) (s : State) :
    (construct p r d s).faults = s.faults := rfl
@[simp] theorem construct_program (p : Pin) (r : Resolution) (d : Word) (s : State) :
    (construct p r d s).program = s.program := rfl
@[simp] theorem construct_names (p : Pin) (r : Resolution) (d : Word) (s : State) :
    (construct p r d s).names = s.names := rfl
@[simp] theorem construct_turns (p : Pin) (r : Resolution) (d : Word) (s : State) :
    (construct p r d s).turns = s.turns := rfl
@[simp] theorem construct_turnNo (p : Pin) (r : Resolution) (d : Word) (s : State) :
    (construct p r d s).turnNo = s.turnNo := rfl
@[simp] theorem construct_levels (p : Pin) (r : Resolution) (d : Word) (s : State) :
    (construct p r d s).levels = s.levels := rfl
@[simp] theorem construct_draws (p : Pin) (r : Resolution) (d : Word) (s : State) :
    (construct p r d s).draws = s.draws := rfl

@[simp] theorem raiseIllegal_res (w : Word) (s : State) : (raiseIllegal w s).res = s.res := rfl
@[simp] theorem raiseIllegal_delay (w : Word) (s : State) : (raiseIllegal w s).delay = s.delay := rfl
@[simp] theorem raiseIllegal_pin (w : Word) (s : State) : (raiseIllegal w s).pin = s.pin := rfl
@[simp] theorem raiseIllegal_bres (w : Word) (s : State) : (raiseIllegal w s).bres = s.bres := rfl
@[simp] theorem raiseIllegal_acc (w : Word) (s : State) : (raiseIllegal w s).acc = s.acc := rfl
@[simp] theorem raiseIllegal_bit (w : Word) (s : State) : (raiseIllegal w s).bit = s.bit := rfl
@[simp] theorem raiseIllegal_scnt (w : Word) (s : State) : (raiseIllegal w s).scnt = s.scnt := rfl
@[simp] theorem raiseIllegal_seq (w : Word) (s : State) : (raiseIllegal w s).seq = .idle := rfl
@[simp] theorem raiseIllegal_cmdl (w : Word) (s : State) : (raiseIllegal w s).cmdl = s.cmdl := rfl
@[simp] theorem raiseIllegal_opl (w : Word) (s : State) : (raiseIllegal w s).opl = s.opl := rfl
@[simp] theorem raiseIllegal_arg (w : Word) (s : State) : (raiseIllegal w s).arg = s.arg := rfl
@[simp] theorem raiseIllegal_rsp (w : Word) (s : State) : (raiseIllegal w s).rsp = s.rsp := rfl
@[simp] theorem raiseIllegal_last (w : Word) (s : State) : (raiseIllegal w s).last = .illegal := rfl
@[simp] theorem raiseIllegal_ill (w : Word) (s : State) : (raiseIllegal w s).ill = true := rfl
@[simp] theorem raiseIllegal_hist (w : Word) (s : State) : (raiseIllegal w s).hist = s.hist := rfl
@[simp] theorem raiseIllegal_inReset (w : Word) (s : State) : (raiseIllegal w s).inReset = s.inReset := rfl
@[simp] theorem raiseIllegal_held (w : Word) (s : State) : (raiseIllegal w s).held = s.held := rfl
@[simp] theorem raiseIllegal_faults (w : Word) (s : State) :
    (raiseIllegal w s).faults = s.faults ++ [.illegalCommand w] := rfl
@[simp] theorem raiseIllegal_program (w : Word) (s : State) : (raiseIllegal w s).program = s.program := rfl
@[simp] theorem raiseIllegal_names (w : Word) (s : State) : (raiseIllegal w s).names = s.names := rfl
@[simp] theorem raiseIllegal_turns (w : Word) (s : State) : (raiseIllegal w s).turns = s.turns := rfl
@[simp] theorem raiseIllegal_turnNo (w : Word) (s : State) : (raiseIllegal w s).turnNo = s.turnNo := rfl
@[simp] theorem raiseIllegal_levels (w : Word) (s : State) : (raiseIllegal w s).levels = s.levels := rfl
@[simp] theorem raiseIllegal_draws (w : Word) (s : State) : (raiseIllegal w s).draws = s.draws := rfl

@[simp] theorem raiseBusError_res (off : Offset) (s : State) : (raiseBusError off s).res = s.res := rfl
@[simp] theorem raiseBusError_delay (off : Offset) (s : State) : (raiseBusError off s).delay = s.delay := rfl
@[simp] theorem raiseBusError_pin (off : Offset) (s : State) : (raiseBusError off s).pin = s.pin := rfl
@[simp] theorem raiseBusError_bres (off : Offset) (s : State) : (raiseBusError off s).bres = s.bres := rfl
@[simp] theorem raiseBusError_acc (off : Offset) (s : State) : (raiseBusError off s).acc = s.acc := rfl
@[simp] theorem raiseBusError_bit (off : Offset) (s : State) : (raiseBusError off s).bit = s.bit := rfl
@[simp] theorem raiseBusError_scnt (off : Offset) (s : State) : (raiseBusError off s).scnt = s.scnt := rfl
@[simp] theorem raiseBusError_seq (off : Offset) (s : State) : (raiseBusError off s).seq = s.seq := rfl
@[simp] theorem raiseBusError_cmdl (off : Offset) (s : State) : (raiseBusError off s).cmdl = s.cmdl := rfl
@[simp] theorem raiseBusError_opl (off : Offset) (s : State) : (raiseBusError off s).opl = s.opl := rfl
@[simp] theorem raiseBusError_arg (off : Offset) (s : State) : (raiseBusError off s).arg = s.arg := rfl
@[simp] theorem raiseBusError_rsp (off : Offset) (s : State) : (raiseBusError off s).rsp = s.rsp := rfl
@[simp] theorem raiseBusError_last (off : Offset) (s : State) : (raiseBusError off s).last = s.last := rfl
@[simp] theorem raiseBusError_ill (off : Offset) (s : State) : (raiseBusError off s).ill = s.ill := rfl
@[simp] theorem raiseBusError_hist (off : Offset) (s : State) : (raiseBusError off s).hist = s.hist := rfl
@[simp] theorem raiseBusError_inReset (off : Offset) (s : State) : (raiseBusError off s).inReset = s.inReset := rfl
@[simp] theorem raiseBusError_held (off : Offset) (s : State) : (raiseBusError off s).held = s.held := rfl
@[simp] theorem raiseBusError_faults (off : Offset) (s : State) :
    (raiseBusError off s).faults = s.faults ++ [.busError (busAddr off)] := rfl
@[simp] theorem raiseBusError_program (off : Offset) (s : State) : (raiseBusError off s).program = s.program := rfl
@[simp] theorem raiseBusError_names (off : Offset) (s : State) : (raiseBusError off s).names = s.names := rfl
@[simp] theorem raiseBusError_turns (off : Offset) (s : State) : (raiseBusError off s).turns = s.turns := rfl
@[simp] theorem raiseBusError_turnNo (off : Offset) (s : State) : (raiseBusError off s).turnNo = s.turnNo := rfl
@[simp] theorem raiseBusError_levels (off : Offset) (s : State) : (raiseBusError off s).levels = s.levels := rfl
@[simp] theorem raiseBusError_draws (off : Offset) (s : State) : (raiseBusError off s).draws = s.draws := rfl

@[simp] theorem accept_res (v : Word) (s : State) : (accept v s).res = s.res := rfl
@[simp] theorem accept_delay (v : Word) (s : State) : (accept v s).delay = s.delay := rfl
@[simp] theorem accept_pin (v : Word) (s : State) : (accept v s).pin = s.pin := rfl
@[simp] theorem accept_bres (v : Word) (s : State) : (accept v s).bres = s.bres := rfl
@[simp] theorem accept_acc (v : Word) (s : State) : (accept v s).acc = s.acc := rfl
@[simp] theorem accept_bit (v : Word) (s : State) : (accept v s).bit = s.bit := rfl
@[simp] theorem accept_scnt (v : Word) (s : State) : (accept v s).scnt = s.scnt := rfl
@[simp] theorem accept_seq (v : Word) (s : State) : (accept v s).seq = .exec := rfl
@[simp] theorem accept_cmdl (v : Word) (s : State) : (accept v s).cmdl = v := rfl
@[simp] theorem accept_opl (v : Word) (s : State) : (accept v s).opl = s.arg := rfl
@[simp] theorem accept_arg (v : Word) (s : State) : (accept v s).arg = s.arg := rfl
@[simp] theorem accept_rsp (v : Word) (s : State) : (accept v s).rsp = s.rsp := rfl
@[simp] theorem accept_last (v : Word) (s : State) : (accept v s).last = s.last := rfl
@[simp] theorem accept_ill (v : Word) (s : State) : (accept v s).ill = s.ill := rfl
@[simp] theorem accept_hist (v : Word) (s : State) : (accept v s).hist = s.hist := rfl
@[simp] theorem accept_inReset (v : Word) (s : State) : (accept v s).inReset = s.inReset := rfl
@[simp] theorem accept_held (v : Word) (s : State) : (accept v s).held = s.held := rfl
@[simp] theorem accept_faults (v : Word) (s : State) : (accept v s).faults = s.faults := rfl
@[simp] theorem accept_program (v : Word) (s : State) : (accept v s).program = s.program := rfl
@[simp] theorem accept_names (v : Word) (s : State) : (accept v s).names = s.names := rfl
@[simp] theorem accept_turns (v : Word) (s : State) : (accept v s).turns = s.turns := rfl
@[simp] theorem accept_turnNo (v : Word) (s : State) : (accept v s).turnNo = s.turnNo := rfl
@[simp] theorem accept_levels (v : Word) (s : State) : (accept v s).levels = s.levels := rfl
@[simp] theorem accept_draws (v : Word) (s : State) : (accept v s).draws = s.draws := rfl

@[simp] theorem releaseReset_res (s : State) : (releaseReset s).res = s.res := rfl
@[simp] theorem releaseReset_delay (s : State) : (releaseReset s).delay = s.delay := rfl
@[simp] theorem releaseReset_pin (s : State) : (releaseReset s).pin = s.pin := rfl
@[simp] theorem releaseReset_bres (s : State) : (releaseReset s).bres = s.bres := rfl
@[simp] theorem releaseReset_acc (s : State) : (releaseReset s).acc = s.acc := rfl
@[simp] theorem releaseReset_bit (s : State) : (releaseReset s).bit = s.bit := rfl
@[simp] theorem releaseReset_scnt (s : State) : (releaseReset s).scnt = s.scnt := rfl
@[simp] theorem releaseReset_seq (s : State) : (releaseReset s).seq = s.seq := rfl
@[simp] theorem releaseReset_cmdl (s : State) : (releaseReset s).cmdl = s.cmdl := rfl
@[simp] theorem releaseReset_opl (s : State) : (releaseReset s).opl = s.opl := rfl
@[simp] theorem releaseReset_arg (s : State) : (releaseReset s).arg = s.arg := rfl
@[simp] theorem releaseReset_rsp (s : State) : (releaseReset s).rsp = s.rsp := rfl
@[simp] theorem releaseReset_last (s : State) : (releaseReset s).last = s.last := rfl
@[simp] theorem releaseReset_ill (s : State) : (releaseReset s).ill = s.ill := rfl
@[simp] theorem releaseReset_hist (s : State) : (releaseReset s).hist = s.hist := rfl
@[simp] theorem releaseReset_inReset (s : State) : (releaseReset s).inReset = false := rfl
@[simp] theorem releaseReset_held (s : State) : (releaseReset s).held = s.held := rfl
@[simp] theorem releaseReset_faults (s : State) : (releaseReset s).faults = s.faults := rfl
@[simp] theorem releaseReset_program (s : State) : (releaseReset s).program = s.program := rfl
@[simp] theorem releaseReset_names (s : State) : (releaseReset s).names = s.names := rfl
@[simp] theorem releaseReset_turns (s : State) : (releaseReset s).turns = s.turns := rfl
@[simp] theorem releaseReset_turnNo (s : State) : (releaseReset s).turnNo = s.turnNo := rfl
@[simp] theorem releaseReset_levels (s : State) : (releaseReset s).levels = s.levels := rfl
@[simp] theorem releaseReset_draws (s : State) : (releaseReset s).draws = s.draws := rfl

end Sys2Proof.Machine
end

