-- ==== Sys2Proof/Laws/Ops.lean ====
section
/-! SUPPORT. One lemma for each shared operation that says what it can do; later proofs cite these and do not unfold
the operations again. -/

namespace Sys2Proof.Machine

/-! ### The comparator -/

theorem drawLevel_snd (s : State) :
    (drawLevel s).2 = { s with
      levels := s.levels.tail, draws := if s.levels = [] then s.draws + 1 else s.draws } := by
  unfold drawLevel
  cases h : s.levels <;> simp

theorem drawLevel_fst (s : State) (h : s.levels ≠ []) : s.levels.head? = some (drawLevel s).1 := by
  unfold drawLevel
  cases hl : s.levels with
  | nil => exact absurd hl h
  | cons l ls => simp

theorem sample_snd (p : Pin) (s : State) :
    (sample p s).2 = { s with
      hist := s.hist ++ [.read p (sample p s).1], levels := s.levels.tail,
      draws := if s.levels = [] then s.draws + 1 else s.draws } := by
  simp [sample, emit, drawLevel_snd]

theorem sample_fst (p : Pin) (s : State) (h : s.levels ≠ []) : s.levels.head? = some (sample p s).1 :=
  drawLevel_fst s h

/-! ### The register window -/

theorem base_mod_four : Config.base % 4 = 0 := by unfold Config.base; omega

/-- `BASE` is 16-byte aligned, so an address of the window is a multiple of 4 exactly when its offset is. -/
theorem busAddr_mod_four (off : Offset) : busAddr off % 4 = off.toNat % 4 := by
  have := base_mod_four
  unfold busAddr
  omega

theorem legalAccess_iff (off : Offset) (n : Nat) : legalAccess off n = true ↔ n = 4 ∧ busAddr off % 4 = 0 := by
  simp [legalAccess, busAddr_mod_four]

theorem lookup_bindName (name : Name) (v : Word) (m : Name) (names : List (Name × Word)) :
    lookupName m (bindName name v names) = if m = name then some v else lookupName m names := by
  induction names with
  | nil => simp [bindName, lookupName, eq_comm]
  | cons x xs ih =>
    obtain ⟨k, w⟩ := x
    by_cases hk : k = name
    · by_cases hm : m = name
      · simp [bindName, lookupName, hk, hm]
      · simp [bindName, lookupName, hk, hm, Ne.symm hm]
    · by_cases hm : k = m
      · simp [bindName, lookupName, hm, hm ▸ hk]
      · simp [bindName, lookupName, hk, hm, ih]

/-- What a write can do: set `ARG`, be accepted, be held, or be a bus error. -/
theorem memWrite_cases (off : Offset) (n : Nat) (v : Word) (s : State) :
    (off = 0x4#4 ∧ n = 4 ∧ memWrite off n v s = { s with arg := v }) ∨
    (s.seq = .idle ∧ memWrite off n v s = accept v s) ∨
    (s.seq ≠ .idle ∧ memWrite off n v s = { s with held := some v }) ∨
    memWrite off n v s = raiseBusError off s := by
  unfold memWrite
  split
  · rename_i h
    split
    · by_cases hs : s.seq = .idle
      · exact .inr (.inl ⟨hs, by simp [commandWrite, hs]⟩)
      · exact .inr (.inr (.inl ⟨hs, by simp [commandWrite, hs]⟩))
    · rename_i h4
      exact .inl ⟨BitVec.eq_of_toNat_eq (by simpa using h4), (by simpa using ((legalAccess_iff off n).1 h).1), rfl⟩
    · exact .inr (.inr (.inr rfl))
  · exact .inr (.inr (.inr rfl))

/-- What a host statement can do: a write, a bound name, a bus error, or one more poll. -/
theorem hostStmt_cases (st : HostStmt) (s : State) :
    (∃ v, st = .write 0x4#4 4 v ∧ hostStmt st s = { s with arg := v }) ∨
    (∃ v, s.seq = .idle ∧ hostStmt st s = accept v s) ∨
    (∃ v, s.seq ≠ .idle ∧ hostStmt st s = { s with held := some v }) ∨
    (∃ off, hostStmt st s = raiseBusError off s) ∨
    (∃ names, hostStmt st s = { s with names := names }) ∨
    (st = .wait ∧ hostStmt st s = { s with program := .wait :: s.program }) := by
  cases st with
  | write off n v =>
    obtain ⟨rfl, rfl, h⟩ | ⟨hs, h⟩ | ⟨hs, h⟩ | h := memWrite_cases off n v s
    · exact .inl ⟨v, rfl, h⟩
    · exact .inr (.inl ⟨v, hs, h⟩)
    · exact .inr (.inr (.inl ⟨v, hs, h⟩))
    · exact .inr (.inr (.inr (.inl ⟨off, h⟩)))
  | read off n name =>
    cases h : memRead off n s with
    | none => exact .inr (.inr (.inr (.inl ⟨off, by simp [hostStmt, h]⟩)))
    | some v => exact .inr (.inr (.inr (.inr (.inl ⟨bindName name v s.names, by simp [hostStmt, h]⟩))))
  | wait =>
    by_cases h : (statusWord s).getLsbD 0 = true
    · exact .inr (.inr (.inr (.inr (.inr ⟨rfl, by simp [hostStmt, pollStatus, h]⟩))))
    · exact .inr (.inr (.inr (.inr (.inl ⟨s.names, (if_neg h : pollStatus s = s)⟩))))

/-! ### Meanings -/

theorem validRes_iff (v : Word) : validRes v = true ↔ v = 0#32 ∨ v = 1#32 := by simp [validRes]

theorem resOf_zero : resOf 0#32 = .eightBit := rfl

theorem resOf_one : resOf 1#32 = .tenBit := rfl

/-- What a command can do: start a conversion, reject its operand, construct, set and apply, or set one register. -/
theorem exec_cases (i : Instr) (s : State) :
    (i = .conv ∧ exec i s = .next { s with acc := 0#10, seq := .cTrial, bit := BitVec.ofNat 4 (top s.res) }) ∨
    (((∃ p, i = .initpr p) ∨ i = .setres ∨ i = .setrescfg) ∧ exec i s = .next (complete .errRes 1#32 s)) ∨
    (((∃ p, i = .initpr p) ∨ (∃ p, i = .initp p) ∨ i = .init) ∧
      ∃ p r d, exec i s = .next (complete .ok 0#32 (construct p r d s))) ∨
    (i = .setrescfg ∧ ∃ r, exec i s = .next (complete .ok 0#32 (applyBundle r { s with res := r }))) ∨
    (i = .setres ∧ ∃ r, exec i s = .next (complete .ok 0#32 { s with res := r })) ∨
    (i = .setdly ∧ exec i s = .next (complete .ok 0#32 { s with delay := s.opl })) ∨
    ((i = .getdly ∨ i = .getres) ∧ ∃ v, exec i s = .next (complete .ok v s)) := by
  cases i with
  | init => exact .inr (.inr (.inl ⟨.inr (.inr rfl), _, _, _, rfl⟩))
  | initp p => exact .inr (.inr (.inl ⟨.inr (.inl ⟨p, rfl⟩), _, _, _, rfl⟩))
  | initpr p =>
    by_cases h : validRes s.opl = true
    · exact .inr (.inr (.inl ⟨.inl ⟨p, rfl⟩, _, _, _, (if_pos h : execInitpr p s = _)⟩))
    · exact .inr (.inl ⟨.inl ⟨p, rfl⟩, (if_neg h : execInitpr p s = _)⟩)
  | conv => exact .inl ⟨rfl, rfl⟩
  | setres =>
    by_cases h : validRes s.opl = true
    · exact .inr (.inr (.inr (.inr (.inl ⟨rfl, _, (if_pos h : execSetres s = _)⟩))))
    · exact .inr (.inl ⟨.inr (.inl rfl), (if_neg h : execSetres s = _)⟩)
  | setdly => exact .inr (.inr (.inr (.inr (.inr (.inl ⟨rfl, rfl⟩)))))
  | getdly => exact .inr (.inr (.inr (.inr (.inr (.inr ⟨.inl rfl, _, rfl⟩)))))
  | getres => exact .inr (.inr (.inr (.inr (.inr (.inr ⟨.inr rfl, _, rfl⟩)))))
  | setrescfg =>
    by_cases h : validRes s.opl = true
    · exact .inr (.inr (.inr (.inl ⟨rfl, _, (if_pos h : execSetrescfg s = _)⟩)))
    · exact .inr (.inl ⟨.inr (.inr rfl), (if_neg h : execSetrescfg s = _)⟩)

/-- What a trial step that succeeds did. -/
theorem trialStep_next {s t : State} (h : trialStep s = .next t) :
    s.acc.toNat + 2 ^ s.bit.toNat < 1024 ∧
    t = { s with
      acc := BitVec.ofNat 10 (s.acc.toNat + 2 ^ s.bit.toNat), scnt := s.delay, seq := .cSettle,
      hist := s.hist ++ [.duty (BitVec.ofNat 32 (s.acc.toNat + 2 ^ s.bit.toNat))] } := by
  unfold trialStep at h
  simp only at h
  split at h
  · rename_i hv
    exact ⟨hv, by cases h; rfl⟩
  · cases h

/-- What a sample step that succeeds did: the accumulator `decideBit` gives, and completion or the next trial. -/
theorem sampleStep_next {s t : State} (h : sampleStep s = .next t) :
    ∃ l acc, l = (sample s.pin s).1 ∧ decideBit l s.bit.toNat s.acc = some acc ∧
      t = { s with
        acc := acc, hist := s.hist ++ [.read s.pin l], levels := s.levels.tail,
        draws := if s.levels = [] then s.draws + 1 else s.draws,
        rsp := if s.bit = 0#4 then acc.setWidth 32 else s.rsp,
        last := if s.bit = 0#4 then .ok else s.last,
        seq := if s.bit = 0#4 then .idle else .cTrial,
        bit := if s.bit = 0#4 then s.bit else s.bit - 1#4 } := by
  unfold sampleStep at h
  split at h
  · rename_i acc hacc
    refine ⟨_, acc, rfl, hacc, ?_⟩
    cases h
    by_cases hb : s.bit = 0#4 <;> simp [afterSample, hb, sample_snd, complete]
  · cases h

/-! ### Agents -/

/-- The state with its turn taken differs from the state in the model's own turn fields only. -/
theorem takeTurn_snd (s : State) :
    (takeTurn s).2 = { s with
      turns := s.turns.tail, turnNo := if s.turns = [] then s.turnNo + 1 else s.turnNo } := by
  unfold takeTurn
  cases h : s.turns <;> simp

theorem step_of_turns {s : State} {t : Turn} {ts : List Turn} (h : s.turns = t :: ts) :
    step s = agentStep t { s with turns := ts } := by
  simp [step, takeTurn, h]

/-- What a host step that goes on did. -/
theorem hostStep_next {s t : State} (h : hostStep s = .next t) :
    (s.held = none ∧ s.program = [] ∧ t = s) ∨
    (s.inReset = false ∧ ∃ v, s.held = some v ∧
      ((s.seq = .idle ∧ t = accept v { s with held := none }) ∨ (s.seq ≠ .idle ∧ t = s))) ∨
    (s.inReset = false ∧ s.held = none ∧ ∃ st rest, s.program = st :: rest ∧
      t = hostStmt st { s with program := rest }) := by
  unfold hostStep at h
  split at h
  · rename_i hh hp
    cases h
    exact .inl ⟨hh, hp, rfl⟩
  · rename_i v hh
    split at h
    · cases h
    · rename_i hr
      cases h
      refine .inr (.inl ⟨by simpa using hr, v, hh, ?_⟩)
      by_cases hs : s.seq = .idle <;> simp [hs]
  · rename_i st rest hh hp
    split at h
    · cases h
    · rename_i hr
      cases h
      exact .inr (.inr ⟨by simpa using hr, hh, st, rest, hp, rfl⟩)

/-- What an engine step that goes on did. -/
theorem engineStep_next {s t : State} (h : engineStep s = .next t) :
    ((s.inReset = true ∨ s.seq = .idle ∨ (s.seq = .cSettle ∧ s.scnt ≠ 0#32)) ∧ t = s) ∨
    (s.inReset = false ∧
      ((s.seq = .boot ∧ t = bootStep s) ∨
       (s.seq = .exec ∧ ∃ i, decode s.cmdl = .ok i ∧ exec i s = .next t) ∨
       (s.seq = .exec ∧ ∃ e, decode s.cmdl = .error e ∧ t = raiseIllegal s.cmdl s) ∨
       (s.seq = .cTrial ∧ trialStep s = .next t) ∨
       (s.seq = .cSettle ∧ s.scnt = 0#32 ∧ t = { s with seq := .cSample }) ∨
       (s.seq = .cSample ∧ sampleStep s = .next t))) := by
  unfold engineStep at h
  split at h
  · rename_i hr
    cases h
    exact .inl ⟨.inl hr, rfl⟩
  · rename_i hr
    replace hr : s.inReset = false := by simpa using hr
    split at h
    · rename_i hs
      cases h
      exact .inr ⟨hr, .inl ⟨hs, rfl⟩⟩
    · rename_i hs
      cases h
      exact .inl ⟨.inr (.inl hs), rfl⟩
    · rename_i hs
      unfold executeCommand at h
      split at h
      · rename_i i hi
        exact .inr ⟨hr, .inr (.inl ⟨hs, i, hi, h⟩)⟩
      · rename_i e he
        cases h
        exact .inr ⟨hr, .inr (.inr (.inl ⟨hs, e, he, rfl⟩))⟩
    · rename_i hs
      exact .inr ⟨hr, .inr (.inr (.inr (.inl ⟨hs, h⟩)))⟩
    · rename_i hs
      unfold settleStep at h
      cases h
      by_cases hc : s.scnt = 0#32
      · exact .inr ⟨hr, .inr (.inr (.inr (.inr (.inl ⟨hs, hc, by simp [hc]⟩))))⟩
      · exact .inl ⟨.inr (.inr ⟨hs, hc⟩), by simp [hc]⟩
    · rename_i hs
      exact .inr ⟨hr, .inr (.inr (.inr (.inr (.inr ⟨hs, h⟩))))⟩

/-- What a tick did: nothing, or one count down while settling. -/
theorem tickStep_cases (s : State) :
    (tickStep s = s ∧ (s.inReset = true ∨ s.seq ≠ .cSettle ∨ s.scnt = 0#32)) ∨
    (s.inReset = false ∧ s.seq = .cSettle ∧ s.scnt ≠ 0#32 ∧ tickStep s = { s with scnt := s.scnt - 1#32 }) := by
  unfold tickStep
  by_cases hr : s.inReset = true
  · exact .inl ⟨by simp [hr], .inl hr⟩
  · by_cases hs : s.seq = .cSettle ∧ s.scnt ≠ 0#32
    · exact .inr ⟨by simpa using hr, hs.1, hs.2, by simp [hr, hs.1, hs.2]⟩
    · refine .inl ⟨by simp only [hr, Bool.false_eq_true, if_false, if_neg hs], .inr ?_⟩
      by_cases h1 : s.seq = .cSettle
      · exact .inr (by simpa [h1] using hs)
      · exact .inl h1

/-- What an asserted reset leaves: everything but these fields is at its value of `State.reset`. -/
theorem assertReset_eq (s : State) :
    assertReset s = { State.reset with
      inReset := true, hist := s.hist, names := s.names, program := s.program, turns := s.turns,
      turnNo := s.turnNo, levels := s.levels, draws := s.draws,
      faults := s.faults ++ if s.held.isSome then [.busError (busAddr 0x0#4)] else [] } := by
  unfold assertReset abandonHeld State.reset
  cases h : s.held <;> simp [h]

/-- A step that goes on is one of the agents', at the state with the turn taken. -/
theorem step_next {s t : State} (h : step s = .next t) :
    ∃ ts k, hostStep { s with turns := ts, turnNo := k } = .next t ∨
      engineStep { s with turns := ts, turnNo := k } = .next t ∨
      t = tickStep { s with turns := ts, turnNo := k } ∨
      t = assertReset { s with turns := ts, turnNo := k } ∨
      t = releaseReset { s with turns := ts, turnNo := k } := by
  unfold step at h
  rw [takeTurn_snd] at h
  refine ⟨s.turns.tail, if s.turns = [] then s.turnNo + 1 else s.turnNo, ?_⟩
  cases ht : (takeTurn s).1 with
  | host => rw [ht] at h; exact .inl h
  | engine => rw [ht] at h; exact .inr (.inl h)
  | tick => rw [ht] at h; cases h; exact .inr (.inr (.inl rfl))
  | assertReset => rw [ht] at h; cases h; exact .inr (.inr (.inr (.inl rfl)))
  | releaseReset => rw [ht] at h; cases h; exact .inr (.inr (.inr (.inr rfl)))

/-- Everything a step that goes on can have done, at the state `u` with the turn taken: nothing; a held write accepted; a
host statement; an engine step; a tick while settling; reset asserted or released. -/
theorem step_cases {s t : State} (h : step s = .next t) :
    ∃ ts k, ∃ u : State, u = { s with turns := ts, turnNo := k } ∧ (
    (t = u) ∨
    (u.inReset = false ∧ ∃ v, u.held = some v ∧ u.seq = .idle ∧ t = accept v { u with held := none }) ∨
    (u.inReset = false ∧ u.held = none ∧ ∃ st rest, u.program = st :: rest ∧ (
      (∃ v, st = .write 0x4#4 4 v ∧ t = { u with program := rest, arg := v }) ∨
      (∃ v, u.seq = .idle ∧ t = accept v {u with program := rest}) ∨
      (∃ v, u.seq ≠ .idle ∧ t = { u with program := rest, held := some v }) ∨
      (∃ off, t = raiseBusError off {u with program := rest}) ∨
      (∃ names, t = { u with program := rest, names := names }) ∨
      (st = .wait ∧ t = { u with program := .wait :: rest }))) ∨
    (u.inReset = false ∧
      ((u.seq = .boot ∧ t = bootStep u) ∨
       (u.seq = .exec ∧ ∃ i, decode u.cmdl = .ok i ∧ exec i u = .next t) ∨
       (u.seq = .exec ∧ ∃ e, decode u.cmdl = .error e ∧ t = raiseIllegal u.cmdl u) ∨
       (u.seq = .cTrial ∧ trialStep u = .next t) ∨
       (u.seq = .cSettle ∧ u.scnt = 0#32 ∧ t = { u with seq := .cSample }) ∨
       (u.seq = .cSample ∧ sampleStep u = .next t))) ∨
    (u.inReset = false ∧ u.seq = .cSettle ∧ u.scnt ≠ 0#32 ∧ t = { u with scnt := u.scnt - 1#32 }) ∨
    t = assertReset u ∨ t = releaseReset u) := by
  obtain ⟨ts, k, h⟩ := step_next h
  refine ⟨ts, k, _, rfl, ?_⟩
  rcases h with h | h | h | h | h
  · obtain ⟨-, -, rfl⟩ | ⟨hr, w, hw, ⟨hs, rfl⟩ | ⟨-, rfl⟩⟩ | ⟨hr, hh, st, rest, hp, rfl⟩ := hostStep_next h
    · exact .inl rfl
    · exact .inr (.inl ⟨hr, w, hw, hs, rfl⟩)
    · exact .inl rfl
    · exact .inr (.inr (.inl ⟨hr, hh, st, rest, hp, hostStmt_cases st _⟩))
  · obtain ⟨-, rfl⟩ | h := engineStep_next h
    · exact .inl rfl
    · exact .inr (.inr (.inr (.inl h)))
  · obtain ⟨h', -⟩ | h' := tickStep_cases { s with turns := ts, turnNo := k }
    · exact .inl (h.trans h')
    · exact .inr (.inr (.inr (.inr (.inl ⟨h'.1, h'.2.1, h'.2.2.1, h.trans h'.2.2.2⟩))))
  · exact .inr (.inr (.inr (.inr (.inr (.inl h)))))
  · exact .inr (.inr (.inr (.inr (.inr (.inr h)))))

end Sys2Proof.Machine
end

