-- ==== Sys2Proof/Laws/Conversion.lean ====
section
/-! SUPPORT. The arithmetic of the accumulator (spec/41_conversion.md R110), and what the definitions that claims use do
on one more event. -/

namespace Sys2Proof.Machine

@[simp] theorem lastSent_append {α : Type} (f : Event → Option α) (es : List Event) (e : Event) :
    lastSent f (es ++ [e]) = (f e).or (lastSent f es) := by
  cases h : f e <;> simp [lastSent, List.filterMap_append, h]

/-- The bundle's events, written out. -/
theorem bundle_eq (r : Resolution) : bundle r = bundleEvents r := by cases r <;> rfl

@[simp] theorem lastSent_pinCfg_bundle (es : List Event) (r : Resolution) :
    lastSent pinCfgOf (es ++ bundle r) = lastSent pinCfgOf es := by
  simp [bundle, lastSent, pinCfgOf, List.filterMap_cons]

@[simp] theorem lastSent_freq_bundle (es : List Event) (r : Resolution) :
    lastSent freqOf (es ++ bundle r) = some (freq r) := by
  simp [bundle, lastSent, freqOf, List.filterMap_cons]

@[simp] theorem lastSent_counts_bundle (es : List Event) (r : Resolution) :
    lastSent countsOf (es ++ bundle r) = some (counts r) := by
  simp [bundle, lastSent, countsOf, List.filterMap_cons]

/-- What `decideBit` gives when it gives something. -/
theorem decideBit_some {l : Level} {b : Nat} {acc a : BitVec 10} (h : decideBit l b acc = some a) :
    (l = .high ∧ a = acc) ∨ (l = .low ∧ 2 ^ b ≤ acc.toNat ∧ a = BitVec.ofNat 10 (acc.toNat - 2 ^ b)) := by
  cases l with
  | high => simp [decideBit] at h; exact .inl ⟨rfl, h.symm⟩
  | low =>
    simp only [decideBit] at h
    split at h
    · rename_i hb
      cases h
      exact .inr ⟨rfl, hb, rfl⟩
    · cases h

/-- Setting bit `b` of an accumulator whose bits `b` down to 0 are 0 stays in range and carries nothing. -/
theorem setBit_arith {n acc b : Nat} (hb : b ≤ n) (h : acc < 2 ^ (n + 1)) (hm : acc % 2 ^ (b + 1) = 0) :
    acc + 2 ^ b < 2 ^ (n + 1) ∧ (acc + 2 ^ b) % 2 ^ (b + 1) = 2 ^ b := by
  have hlt : 2 ^ b < 2 ^ (b + 1) := Nat.pow_lt_pow_right (by omega) (by omega)
  have h2 : (acc + 2 ^ b) % 2 ^ (b + 1) = 2 ^ b := by
    rw [Nat.add_mod, hm, Nat.zero_add, Nat.mod_mod, Nat.mod_eq_of_lt hlt]
  refine ⟨?_, h2⟩
  obtain ⟨k, hk⟩ := Nat.dvd_of_mod_eq_zero hm
  obtain ⟨d, rfl⟩ : ∃ d, n = b + d := ⟨n - b, by omega⟩
  have e1 : 2 ^ (b + d + 1) = 2 ^ (b + 1) * 2 ^ d := by rw [← pow_add]; congr 1; omega
  rw [e1] at h ⊢
  subst hk
  have hk : k < 2 ^ d := Nat.lt_of_mul_lt_mul_left h
  calc 2 ^ (b + 1) * k + 2 ^ b < 2 ^ (b + 1) * k + 2 ^ (b + 1) := by omega
    _ = 2 ^ (b + 1) * (k + 1) := by ring
    _ ≤ 2 ^ (b + 1) * 2 ^ d := Nat.mul_le_mul_left _ hk

/-- Clearing bit `b` of an accumulator whose bit `b` is its lowest 1 borrows nothing. -/
theorem clearBit_arith {acc b : Nat} (hm : acc % 2 ^ (b + 1) = 2 ^ b) :
    2 ^ b ≤ acc ∧ acc % 2 ^ b = 0 ∧ (acc - 2 ^ b) % 2 ^ b = 0 := by
  have h1 : 2 ^ b ≤ acc := by rw [← hm]; exact Nat.mod_le _ _
  have h2 : acc % 2 ^ b = 0 := by
    have : acc % 2 ^ (b + 1) % 2 ^ b = acc % 2 ^ b := Nat.mod_mod_of_dvd _ ⟨2, by ring⟩
    rw [hm, Nat.mod_self] at this
    exact this.symm
  refine ⟨h1, h2, ?_⟩
  obtain ⟨k, hk⟩ := Nat.dvd_of_mod_eq_zero h2
  rw [hk, show 2 ^ b * k - 2 ^ b = 2 ^ b * (k - 1) by rw [Nat.mul_sub, Nat.mul_one]]
  exact Nat.mul_mod_right _ _

/-- `BIT` counts down by one and never wraps (10_state.md R33). -/
theorem bit_pred_toNat : ∀ b : BitVec 4, b ≠ 0#4 → (b - 1#4).toNat + 1 = b.toNat := by decide

theorem runUntil_succ (stop : State → Bool) (n : Nat) (s : State) :
    runUntil stop (n + 1) s =
      if s.inReset then none
      else if stop s then some s
      else match step s with
        | .next t => runUntil stop n t
        | _ => none := rfl

end Sys2Proof.Machine
end

