-- ==== Sys2Proof/Laws/Decode.lean ====
section
/-! SUPPORT. The fields of a command word as numbers, the byte order of a word, and what the decoder accepts. -/

namespace Sys2Proof

theorem opField_toNat (w : Word) : (opField w).toNat = w.toNat % 16 := by simp [opField]

theorem rsv0Field_toNat (w : Word) : (rsv0Field w).toNat = w.toNat / 16 % 16 := by
  simp [rsv0Field, Nat.shiftRight_eq_div_pow]

theorem pinField_toNat (w : Word) : (pinField w).toNat = w.toNat / 256 % 256 := by
  simp [pinField, Nat.shiftRight_eq_div_pow]

theorem rsv1Field_toNat (w : Word) : (rsv1Field w).toNat = w.toNat / 65536 := by
  have := w.isLt
  simp [rsv1Field, Nat.shiftRight_eq_div_pow]
  omega

theorem reservedBits_iff (w : Word) :
    (rsv1Field w ≠ 0 ∨ rsv0Field w ≠ 0) ↔ (w.toNat / 65536 ≠ 0 ∨ w.toNat / 16 % 16 ≠ 0) := by
  rw [← rsv1Field_toNat, ← rsv0Field_toNat]
  simp [BitVec.toNat_eq]

theorem pinField_eq_zero_iff (w : Word) : pinField w = 0 ↔ w.toNat / 256 % 256 = 0 := by
  rw [← pinField_toNat]
  simp [BitVec.toNat_eq]

theorem withoutPin_ok_iff (w : Word) (i j : Instr) :
    withoutPin w i = .ok j ↔ w.toNat / 256 % 256 = 0 ∧ j = i := by
  unfold withoutPin
  by_cases h : pinField w = 0
  · rw [if_pos h]
    simp [(pinField_eq_zero_iff w).1 h, eq_comm]
  · rw [if_neg h]
    simp [mt (pinField_eq_zero_iff w).2 h]

/-- What the decoder accepts: reserved bits 0, then one of the nine opcodes, and no pin but with opcodes 2 and 3. -/
theorem decode_ok_iff (w : Word) (i : Instr) :
    decode w = .ok i ↔
      w.toNat / 65536 = 0 ∧ w.toNat / 16 % 16 = 0 ∧
      ((w.toNat % 16 = 2 ∧ i = .initp (pinField w)) ∨ (w.toNat % 16 = 3 ∧ i = .initpr (pinField w)) ∨
        (w.toNat / 256 % 256 = 0 ∧
          ((w.toNat % 16 = 1 ∧ i = .init) ∨ (w.toNat % 16 = 4 ∧ i = .conv) ∨ (w.toNat % 16 = 5 ∧ i = .setres) ∨
            (w.toNat % 16 = 6 ∧ i = .setdly) ∨ (w.toNat % 16 = 7 ∧ i = .getdly) ∨
            (w.toNat % 16 = 8 ∧ i = .getres) ∨ (w.toNat % 16 = 9 ∧ i = .setrescfg)))) := by
  have flip : ∀ a b : Instr, (Except.ok a : Except Illegal Instr) = .ok b ↔ b = a := by simp [eq_comm]
  unfold decode
  by_cases h : w.toNat / 65536 ≠ 0 ∨ w.toNat / 16 % 16 ≠ 0
  · rw [if_pos ((reservedBits_iff w).2 h)]
    simp
    omega
  · rw [if_neg (by rwa [reservedBits_iff]), opField_toNat]
    have h' : w.toNat / 65536 = 0 ∧ w.toNat / 16 % 16 = 0 := by omega
    rw [← and_assoc, and_iff_right h']
    have hlt : w.toNat % 16 < 16 := Nat.mod_lt _ (by omega)
    generalize w.toNat % 16 = k at *
    interval_cases k <;> simp [withoutPin_ok_iff, flip]

/-- The little-endian bytes of a word make the word again (20_memory.md R43). -/
theorem wordOfBytes_of_bytes (w : Word) :
    wordOfBytes (w.extractLsb' 0 8) (w.extractLsb' 8 8) (w.extractLsb' 16 8) (w.extractLsb' 24 8) = w := by
  apply BitVec.eq_of_getLsbD_eq
  intro i hi
  unfold wordOfBytes
  rw [BitVec.getLsbD_append, BitVec.getLsbD_append, BitVec.getLsbD_append]
  simp only [BitVec.getLsbD_extractLsb']
  interval_cases i <;> simp

end Sys2Proof
end

