-- ==== Sys2Proof/Laws/PerInstr.lean ====
section
/-! SUPPORT. Statements about every command as syntax, one lemma per constructor of `Instr`. -/

namespace Sys2Proof.Laws

/-- The opcode of a command (30_encoding.md R66). -/
def opcodeOf : Instr → Nat
  | .init => 1
  | .initp _ => 2
  | .initpr _ => 3
  | .conv => 4
  | .setres => 5
  | .setdly => 6
  | .getdly => 7
  | .getres => 8
  | .setrescfg => 9

namespace EncodedFields

/-- The encoding of a command has its opcode in bits 3:0 and zeros in both reserved fields (30_encoding.md R63). -/
def Statement (i : Instr) : Prop :=
  (opField (encode i)).toNat = opcodeOf i ∧ rsv0Field (encode i) = 0 ∧ rsv1Field (encode i) = 0

theorem init : Statement .init := by unfold Statement; decide

theorem initp (p : Pin) : Statement (.initp p) := by unfold Statement; revert p; decide

theorem initpr (p : Pin) : Statement (.initpr p) := by unfold Statement; revert p; decide

theorem conv : Statement .conv := by unfold Statement; decide

theorem setres : Statement .setres := by unfold Statement; decide

theorem setdly : Statement .setdly := by unfold Statement; decide

theorem getdly : Statement .getdly := by unfold Statement; decide

theorem getres : Statement .getres := by unfold Statement; decide

theorem setrescfg : Statement .setrescfg := by unfold Statement; decide

end EncodedFields

end Sys2Proof.Laws
end

