-- ==== Sys2Proof/Laws/Transactions.lean ====
section
/-! SUPPORT. What the assembled form does on one more transaction, and what a step does to the statements outstanding
(spec/30_encoding.md R75). -/

namespace Sys2Proof.Machine

@[simp] theorem assembledForm_nil : assembledForm [] [] = some [] := rfl

@[simp] theorem assembledForm_write (off : Offset) (n : Nat) (v : Word) (p : List HostStmt) (vs : List (Option Word)) :
    assembledForm (.write off n v :: p) vs = (assembledForm p vs).map (writeOf off v :: ·) := rfl

@[simp] theorem assembledForm_read (off : Offset) (n : Nat) (name : Name) (p : List HostStmt) (v : Option Word)
    (vs : List (Option Word)) :
    assembledForm (.read off n name :: p) (v :: vs) = (assembledForm p vs).map (.read off v :: ·) := rfl

/-- A poll that shows `BUSY = 1` leaves the `wait` outstanding; one that shows `BUSY = 0` ends it. -/
@[simp] theorem assembledForm_wait (p : List HostStmt) (v : Word) (vs : List (Option Word)) :
    assembledForm (.wait :: p) (some v :: vs) =
      (assembledForm (if v.getLsbD 0 then .wait :: p else p) vs).map (.read 0xC#4 (some v) :: ·) := by
  cases hv : v.getLsbD 0 with
  | false => simp only [assembledForm, pollReads, hv, Bool.false_eq_true, if_false, List.singleton_append]
  | true =>
    simp only [assembledForm, pollReads, hv, if_true]
    cases pollReads vs with
    | none => rfl
    | some r => simp [Function.comp_def]

@[simp] theorem repliesOf_write (off : Offset) (v : Word) (trs : List Transaction) :
    repliesOf (writeOf off v :: trs) = repliesOf trs := rfl

@[simp] theorem repliesOf_read (off : Offset) (v : Option Word) (trs : List Transaction) :
    repliesOf (.read off v :: trs) = v :: repliesOf trs := rfl

@[simp] theorem transactionsOf_zero (s : State) : transactionsOf 0 s = [] := rfl

theorem transactionsOf_succ {s t : State} (n : Nat) (h : step s = .next t) :
    transactionsOf (n + 1) s = (stepTransaction s).toList ++ transactionsOf n t := by
  simp [transactionsOf, h]

/-- What the statements `p` amount to, given a transaction (or none) and the statements `q` outstanding after it. -/
def Advances (p q : List HostStmt) (x : Option Transaction) : Prop :=
  ∀ trs, assembledForm q (repliesOf trs) = some trs →
    assembledForm p (repliesOf (x.toList ++ trs)) = some (x.toList ++ trs)

theorem advances_refl (p : List HostStmt) : Advances p p none := fun _ h => h

theorem advances_write (off : Offset) (n : Nat) (v : Word) (p : List HostStmt) :
    Advances (.write off n v :: p) p (some (writeOf off v)) := fun _ h => by simp [h]

theorem advances_read (off : Offset) (n : Nat) (name : Name) (p : List HostStmt) (v : Option Word) :
    Advances (.read off n name :: p) p (some (.read off v)) := fun _ h => by simp [h]

theorem advances_poll (p : List HostStmt) (v : Word) :
    Advances (.wait :: p) (if v.getLsbD 0 then .wait :: p else p) (some (.read 0xC#4 (some v))) :=
  fun _ h => by simp only [Option.toList_some, List.singleton_append, repliesOf_read, assembledForm_wait, h]; rfl

/-- Which writes are held. -/
theorem memWrite_held (off : Offset) (n : Nat) (v : Word) (s : State) :
    (memWrite off n v s).held =
      if legalAccess off n = true ∧ off.toNat = 0 ∧ s.seq ≠ .idle then some v else s.held := by
  unfold memWrite
  by_cases hl : legalAccess off n = true
  · rw [if_pos hl]
    split
    · rename_i h0
      by_cases hs : s.seq = .idle <;> simp [commandWrite, hs, hl, h0]
    · rename_i h4; simp [h4]
    · rename_i h0 _; simp [show off.toNat ≠ 0 from h0]
  · simp [hl]

/-- A write leaves the program. -/
theorem memWrite_program (off : Offset) (n : Nat) (v : Word) (s : State) :
    (memWrite off n v s).program = s.program := by
  obtain ⟨-, -, h⟩ | ⟨-, h⟩ | ⟨-, h⟩ | h := memWrite_cases off n v s <;> simp [h]

/-- The engine leaves the host's program and a held write. -/
theorem engineStep_host {s t : State} (h : engineStep s = .next t) : t.held = s.held ∧ t.program = s.program := by
  obtain ⟨-, rfl⟩ | ⟨-, ⟨-, rfl⟩ | ⟨-, i, -, h⟩ | ⟨-, _, -, rfl⟩ | ⟨-, h⟩ | ⟨-, -, rfl⟩ | ⟨-, h⟩⟩ := engineStep_next h
  · exact ⟨rfl, rfl⟩
  · simp [bootStep]
  · obtain ⟨-, h'⟩ | ⟨-, h'⟩ | ⟨-, _, _, _, h'⟩ | ⟨-, _, h'⟩ | ⟨-, _, h'⟩ | ⟨-, h'⟩ | ⟨-, _, h'⟩ := exec_cases i s
    all_goals (rw [h'] at h; cases h; simp)
  · simp
  · obtain ⟨-, rfl⟩ := trialStep_next h
    exact ⟨rfl, rfl⟩
  · exact ⟨rfl, rfl⟩
  · obtain ⟨_, _, -, -, rfl⟩ := sampleStep_next h
    exact ⟨rfl, rfl⟩

theorem outstanding_congr {s t : State} (hh : t.held = s.held) (hp : t.program = s.program) :
    outstanding t = outstanding s := by
  simp [outstanding, hh, hp]

/-- A host step that goes on completes at most one transaction of the statements outstanding, and leaves the others. -/
theorem hostStep_outstanding {s t : State} (h : hostStep s = .next t) :
    Advances (outstanding s) (outstanding t) (hostTransaction s) := by
  obtain ⟨hh, hp, rfl⟩ | ⟨-, v, hh, ⟨hs, rfl⟩ | ⟨hs, rfl⟩⟩ | ⟨-, hh, st, rest, hp, rfl⟩ := hostStep_next h
  · simp only [hostTransaction, hh, hp]; exact advances_refl _
  · simpa [hostTransaction, outstanding, hh, hs] using advances_write 0x0#4 4 v s.program
  · simp only [hostTransaction, hh, hs, if_false]; exact advances_refl _
  · cases st with
    | read off n name =>
      have : outstanding (hostStmt (.read off n name) { s with program := rest }) = rest := by
        simp only [hostStmt]
        split <;> simp [outstanding, hh]
      rw [this]
      simpa [hostTransaction, outstanding, hh, hp] using advances_read off n name rest _
    | wait =>
      have : outstanding (hostStmt .wait { s with program := rest }) =
          if (statusWord s).getLsbD 0 then .wait :: rest else rest := by
        simp only [hostStmt, pollStatus]
        have : statusWord { s with program := rest } = statusWord s := rfl
        rw [this]
        split <;> simp [outstanding, hh]
      rw [this]
      simpa only [hostTransaction, outstanding, hh, hp] using advances_poll rest (statusWord s)
    | write off n v =>
      simp only [hostTransaction, outstanding, hh, hp, hostStmt, memWrite_held, memWrite_program]
      by_cases hc : legalAccess off n = true ∧ off.toNat = 0 ∧ s.seq ≠ .idle
      · obtain rfl : off = 0#4 := BitVec.eq_of_toNat_eq hc.2.1
        obtain rfl : n = 4 := ((legalAccess_iff _ n).1 hc.1).1
        simpa [hc] using advances_refl (.write 0#4 4 v :: rest)
      · simp only [if_neg hc]
        exact advances_write off n v rest
/-- The turn fields do not matter to the host's transaction. -/
theorem hostTransaction_turns (s : State) (ts : List Turn) (k : Nat) :
    hostTransaction { s with turns := ts, turnNo := k } = hostTransaction s := by
  simp only [hostTransaction, memWrite_held]
  rfl

theorem tickStep_host (s : State) : (tickStep s).held = s.held ∧ (tickStep s).program = s.program := by
  obtain ⟨h, -⟩ | ⟨-, -, -, h⟩ := tickStep_cases s <;> simp [h]

theorem assertReset_outstanding (s : State) : outstanding (assertReset s) = s.program := by
  rw [assertReset_eq]; rfl

/-- The same of every step that goes on, whichever agent takes it. -/
theorem step_outstanding {s t : State} (h : step s = .next t) :
    Advances (outstanding s) (outstanding t) (stepTransaction s) := by
  unfold step at h
  unfold stepTransaction
  rw [takeTurn_snd] at h
  cases ht : (takeTurn s).1 with
  | host =>
    rw [ht] at h
    have := hostStep_outstanding (show hostStep _ = .next t from h)
    rw [hostTransaction_turns] at this
    exact this
  | engine =>
    rw [ht] at h
    obtain ⟨hh, hp⟩ := engineStep_host h
    rw [outstanding_congr hh hp]
    exact advances_refl _
  | tick =>
    rw [ht] at h
    cases h
    rw [outstanding_congr (tickStep_host _).1 (tickStep_host _).2]
    exact advances_refl _
  | assertReset =>
    rw [ht] at h
    cases h
    rw [assertReset_outstanding]
    cases hh : s.held with
    | none => simpa [outstanding, hh] using advances_refl s.program
    | some v => simpa [outstanding, hh] using advances_write 0x0#4 4 v s.program
  | releaseReset =>
    rw [ht] at h
    cases h
    exact advances_refl _

end Sys2Proof.Machine
end

