-- ==== Sys2Proof/Tests/Slice0.lean ====
section
/-! SUPPORT. Tests on small states, expected results from spec/ (each test names its source), and a witness for the
hypotheses of each statement that has any. -/

namespace Sys2Proof.Tests

open Sys2Proof.Machine

/-! ### Well-formedness (30_encoding.md R74): one ill-formed term for each check -/

theorem test_wf_pin_refused : (CmdStmt.initp 256).wellFormed = false := by decide
theorem test_wf_initpr_pin_refused : (CmdStmt.initpr 256 0).wellFormed = false := by decide
theorem test_wf_resolution_refused : (CmdStmt.initpr 0 4294967296).wellFormed = false := by decide
theorem test_wf_setres_refused : (CmdStmt.setres 4294967296).wellFormed = false := by decide
theorem test_wf_setrescfg_refused : (CmdStmt.setrescfg 4294967296).wellFormed = false := by decide
theorem test_wf_delay_refused : (CmdStmt.setdly 4294967296).wellFormed = false := by decide
theorem test_wf_largest_accepted :
    ((CmdStmt.initpr 255 4294967295).wellFormed && (CmdStmt.setdly 4294967295).wellFormed) = true := by decide

/-! ### Decoding: words written out bit by bit, `RSV1 PIN RSV0 OP` (R63, R66) -/

theorem test_decode_init : decode 0b0000000000000000_00000000_0000_0001#32 = .ok .init := rfl
theorem test_decode_initp : decode 0b0000000000000000_00010001_0000_0010#32 = .ok (.initp 17#8) := rfl
theorem test_decode_initpr : decode 0b0000000000000000_00000100_0000_0011#32 = .ok (.initpr 4#8) := rfl
theorem test_decode_conv : decode 0b0000000000000000_00000000_0000_0100#32 = .ok .conv := rfl
theorem test_decode_setres : decode 0b0000000000000000_00000000_0000_0101#32 = .ok .setres := rfl
theorem test_decode_setdly : decode 0b0000000000000000_00000000_0000_0110#32 = .ok .setdly := rfl
theorem test_decode_getdly : decode 0b0000000000000000_00000000_0000_0111#32 = .ok .getdly := rfl
theorem test_decode_getres : decode 0b0000000000000000_00000000_0000_1000#32 = .ok .getres := rfl
theorem test_decode_setrescfg : decode 0b0000000000000000_00000000_0000_1001#32 = .ok .setrescfg := rfl

/-- 95_test_vectors.md V-E1, V-E14, V-E15, V-E19, V-E20: reserved opcodes, a pin with INIT, reserved bits. -/
theorem test_decode_illegal :
    decode 0x00000000#32 = .error .reservedOpcode ∧ decode 0x0000000F#32 = .error .reservedOpcode ∧
    decode 0x00000101#32 = .error .misplacedPin ∧ decode 0x00001112#32 = .error .reservedBits ∧
    decode 0x00010001#32 = .error .reservedBits := ⟨rfl, rfl, rfl, rfl, rfl⟩

/-- P2's bytes `03 11 00 00` (95_test_vectors.md section 9) are INITPR 17; three bytes are no command. -/
theorem test_decode_bytes :
    decodeBytes [0x03#8, 0x11#8, 0x00#8, 0x00#8, 0xAA#8] = .ok (.initpr 17#8, [0xAA#8]) ∧
    decodeBytes [0x03#8, 0x11#8, 0x00#8] = .error .truncated := ⟨rfl, rfl⟩

theorem test_decode_table : decodeTableWord 32 0x00001102 = some (.initp 17#8) := by decide

/-! ### Meanings and steps -/

/-- An idle SARE with pin 7 under TEN_BIT, booted with that pin. -/
def calm : State :=
  { State.reset with
    seq := .idle, pin := 7#8, hist := [.pinCfg 7#8, .freq 9370#32, .counts 1024#32, .duty 0#32, .mode .even] }

/-- `calm` in another phase, with turns. -/
def at' (p : Phase) (ts : List Turn) : State := { calm with seq := p, turns := ts }

/-- What a next state holds, as far as `f` looks. -/
def nextView {α : Type} (f : State → α) : Host.Outcome State Fault Refusal → Option α
  | .next t => some (f t)
  | _ => none

/-- INIT discards the delay and the resolution (V-I1). -/
theorem test_init : nextView (fun t => (t.res, t.bres, t.delay, t.rsp, t.seq))
    (exec .init { calm with delay := 200#32, res := .eightBit }) =
    some (.tenBit, .tenBit, 60#32, 0#32, .idle) := by decide

/-- INITP 17 (V-I2). -/
theorem test_initp : nextView (fun t => (t.pin, t.res, t.delay, t.hist.length)) (exec (.initp 17#8) calm) =
    some (17#8, .tenBit, 60#32, 10) := by decide

/-- INITPR 4, EIGHT_BIT (V-I4). -/
theorem test_initpr : nextView (fun t => (t.pin, t.res, t.bres, t.delay, t.last)) (exec (.initpr 4#8) calm) =
    some (4#8, .eightBit, .eightBit, 69#32, .ok) := by decide

/-- INITPR 255 with operand 0x101 changes nothing (V-I7). -/
theorem test_initpr_rejects : nextView (fun t => (t.pin, t.delay, t.rsp, statusWord t))
    (exec (.initpr 255#8) { calm with opl := 0x101#32 }) = some (7#8, 60#32, 1#32, 2#32) := by decide

/-- SETRES 0 leaves the bundle of TEN_BIT (V-S1). -/
theorem test_setres : nextView (fun t => (t.res, t.bres, t.rsp, t.hist.length)) (exec .setres calm) =
    some (.eightBit, .tenBit, 0#32, 5) := by decide

/-- SETRES 0x100 is rejected: all 32 bits are compared (V-S5). -/
theorem test_setres_rejects : nextView (fun t => (t.res, t.rsp, statusWord t))
    (exec .setres { calm with opl := 0x100#32 }) = some (.tenBit, 1#32, 2#32) := by decide

/-- SETRESCFG 0 keeps the delay and sends `Freq(37500), Counts(256)` (V-F5). -/
theorem test_setrescfg : nextView (fun t => (t.res, t.bres, t.delay, (t.hist.drop 5).take 2))
    (exec .setrescfg { calm with delay := 100#32 }) =
    some (.eightBit, .eightBit, 100#32, [.freq 37500#32, .counts 256#32]) := by decide

/-- SETRESCFG 3 is rejected (V-F3). -/
theorem test_setrescfg_rejects : nextView (fun t => (t.res, t.bres, t.rsp, t.hist.length))
    (exec .setrescfg { calm with opl := 3#32 }) = some (.tenBit, .tenBit, 1#32, 5) := by decide

/-- SETDLY 0xFFFFFFFF (V-S8). -/
theorem test_setdly : nextView (fun t => (t.delay, t.rsp)) (exec .setdly { calm with opl := 0xFFFFFFFF#32 }) =
    some (0xFFFFFFFF#32, 0#32) := by decide

/-- GETDLY overwrites `LAST` (V-S13). -/
theorem test_getdly : nextView (fun t => (t.rsp, t.last)) (exec .getdly { calm with last := .errRes }) =
    some (60#32, .ok) := by decide

/-- GETRES reports `RES`, not `BRES`, and `ILL` stays (V-E25, R89). -/
theorem test_getres : nextView (fun t => (t.rsp, statusWord t))
    (exec .getres { calm with bres := .eightBit, ill := true, last := .illegal }) = some (1#32, 8#32) := by decide

/-- CONV clears `ACC` and starts at bit 9 under TEN_BIT (V-C17, R103). -/
theorem test_conv : nextView (fun t => (t.acc, t.bit, t.seq, t.hist.length)) (exec .conv { calm with acc := 255#10 }) =
    some (0#10, 9#4, .cTrial, 5) := by decide

/-- The first trial of V-C3's trace: `ACC` 128, `SCNT` 2, `Duty(128)`. -/
theorem test_trial : nextView (fun t => (t.acc, t.scnt, t.hist.drop 5, t.seq))
    (step { at' .cTrial [.engine] with res := .eightBit, bit := 7#4, delay := 2#32 }) =
    some (128#10, 2#32, [.duty 128#32], .cSettle) := by decide

/-- A LOW clears bit 7 (V-C3, step 4). -/
theorem test_sample_low : nextView (fun t => (t.acc, t.bit, t.hist.drop 5, t.levels))
    (step { at' .cSample [.engine] with res := .eightBit, bit := 7#4, acc := 128#10, levels := [.low, .high] }) =
    some (0#10, 6#4, [.read 7#8 .low], [.high]) := by decide

/-- A HIGH keeps bit 0 and completes (V-C8: code 1). -/
theorem test_sample_last : nextView (fun t => (t.rsp, t.seq, t.bit, t.last))
    (step { at' .cSample [.engine] with bit := 0#4, acc := 1#10, levels := [.high] }) =
    some (1#32, .idle, 0#4, .ok) := by decide

/-- V-T7, V-T8, V-T10: a tick counts down; at 0 it changes nothing; the engine has no step while `SCNT > 0`. -/
theorem test_tick : nextView (fun t => t.scnt) (step { at' .cSettle [.tick] with scnt := 3#32 }) = some 2#32 := by
  decide
theorem test_tick_at_zero : nextView (fun t => (t.scnt, t.seq)) (step (at' .cSettle [.tick])) =
    some (0#32, .cSettle) := by decide
theorem test_settle_waits : nextView (fun t => t.seq) (step { at' .cSettle [.engine] with scnt := 1#32 }) =
    some .cSettle := by decide

/-- V-E24: an illegal word gives `STATUS` 0xC and leaves `RSP`. -/
theorem test_illegal : nextView (fun t => (statusWord t, t.rsp, t.faults))
    (step { at' .exec [.engine] with cmdl := 0xF#32, rsp := 5#32 }) =
    some (0xC#32, 5#32, [.illegalCommand 0xF#32]) := by decide

/-- V-H1: `STATUS` during a conversion is 1. -/
theorem test_status_busy : statusWord (at' .cSettle []) = 1#32 := by decide

/-- V-B2, V-B4, V-B5: a write of `RSP`, a narrow read and a misaligned read are bus errors; no name is bound. -/
theorem test_bus_errors :
    nextView (fun t => (t.rsp, t.faults.length))
      (step { at' .idle [.host] with program := [.write 0x8#4 4 5#32] }) = some (0#32, 1) ∧
    nextView (fun t => (t.names, t.faults.length))
      (step { at' .idle [.host] with program := [.read 0xC#4 1 ['s']] }) = some ([], 1) ∧
    nextView (fun t => (t.names, t.faults.length))
      (step { at' .idle [.host] with program := [.read 0x2#4 4 ['s']] }) = some ([], 1) := by decide

/-- V-B9: `ARG` in little-endian order is `78 56 34 12`. -/
theorem test_arg_bytes :
    [4#4, 5#4, 6#4, 7#4].map (fun o => windowByte o { calm with arg := 0x12345678#32 }) =
    [some 0x78#8, some 0x56#8, some 0x34#8, some 0x12#8] := by decide

/-- V-R2: before the boot step a `CMD` write is held. -/
theorem test_held_in_boot : nextView (fun t => (t.held, t.seq, t.program))
    (step { at' .boot [.host] with program := [.write 0x0#4 4 7#32] }) =
    some (some 7#32, .boot, []) := by decide

/-- V-R5: a held write ends with a bus error when reset is asserted. -/
theorem test_held_at_reset : nextView (fun t => (t.held, t.seq, t.faults.length))
    (step { at' .cTrial [.assertReset] with held := some 7#32 }) = some (none, .boot, 1) := by decide

/-- The algorithm on V-C3's levels `LHLHHLHL`: its duty counts and the code 90. -/
theorem test_algorithm :
    (dutiesSent (algorithm 7#8 0 [.low, .high, .low, .high, .high, .low, .high, .low]).1).map BitVec.toNat =
      [128, 64, 96, 80, 88, 92, 90, 91] ∧
    (algorithm 7#8 0 [.low, .high, .low, .high, .high, .low, .high, .low]).2 = 90 := by decide

/-- P4's line with a reserved opcode is a bus statement all the same (R73). -/
theorem test_assemble_wr : assembleLine "wr CMD, 0x0000000F    ; reserved opcode".toList =
    some [.write 0x0#4 4 0xF#32] := by decide

/-- P5's transactions (95_test_vectors.md section 9), for a poll that shows `BUSY = 1` before the last. -/
theorem test_assembled_form :
    assembledForm [.write 0x0#4 4 4#32, .write 0x0#4 4 8#32, .wait, .read 0x8#4 4 ['v']]
      [some 1#32, some 0#32, some 1#32] =
    some [.write 0x0#4 4#32 [0x04#8, 0x00#8, 0x00#8, 0x00#8], .write 0x0#4 8#32 [0x08#8, 0x00#8, 0x00#8, 0x00#8],
      .read 0xC#4 (some 1#32), .read 0xC#4 (some 0#32), .read 0x8#4 (some 1#32)] := by decide

/-! ### Witnesses: for each statement with hypotheses, a state and operands that meet them -/

theorem calm_inv : Inv calm :=
  ⟨trivial, fun h => (nomatch h), fun h => (nomatch h), fun _ => ⟨rfl, rfl, rfl⟩, fun h => (nomatch h),
    fun h => (nomatch h)⟩

/-- A trial, a settling and a sampling state of the invariant, under TEN_BIT at bit `b`. -/
def trialing (b : BitVec 4) (ts : List Turn) : State := { at' .cTrial ts with bit := b }
def sampling (b : BitVec 4) (acc : BitVec 10) (ts : List Turn) : State := { at' .cSample ts with bit := b, acc := acc }

theorem trialing_inv : Inv (trialing 9#4 [.engine]) :=
  ⟨(by decide : (9 ≤ 9 ∧ 0 < 2 ^ 10 ∧ 0 % 2 ^ 10 = 0)), fun h => (nomatch h), fun h => (nomatch h),
    fun _ => ⟨rfl, rfl, rfl⟩, fun h => (nomatch h), fun h => (nomatch h)⟩

theorem sampling_inv : Inv (sampling 9#4 512#10 [.engine]) :=
  ⟨(by decide : (9 ≤ 9 ∧ 512 < 2 ^ 10 ∧ 512 % 2 ^ 10 = 2 ^ 9 ∧ 0#32 = 0#32)), fun h => (nomatch h), fun h => (nomatch h),
    fun _ => ⟨rfl, rfl, rfl⟩, fun h => (nomatch h), fun h => (nomatch h)⟩

theorem sampling_last_inv : Inv (sampling 0#4 513#10 [.engine]) :=
  ⟨(by decide : (0 ≤ 9 ∧ 513 < 2 ^ 10 ∧ 513 % 2 ^ 1 = 2 ^ 0 ∧ 0#32 = 0#32)), fun h => (nomatch h), fun h => (nomatch h),
    fun _ => ⟨rfl, rfl, rfl⟩, fun h => (nomatch h), fun h => (nomatch h)⟩

theorem witness_IllegalWordsAndTheirEffects :
    engineNext { at' .exec [.engine] with cmdl := 0xA#32 } [] ∧
    decode ({ at' .exec [.engine] with cmdl := 0xA#32 } : State).cmdl = .error .reservedOpcode :=
  ⟨⟨rfl, rfl⟩, rfl⟩

theorem witness_DecodeAndEncodeAgree : decode 0x0000FF03#32 = .ok (.initpr 255#8) := rfl

theorem witness_EngineStepRunsDecodedCommand :
    engineNext { at' .exec [.engine] with cmdl := 4#32 } [] ∧ decode 4#32 = .ok .conv := ⟨⟨rfl, rfl⟩, rfl⟩

/-- The machine while reset is asserted. -/
def resetting : State := assertReset (at' .cTrial [])

theorem resetting_inv : resetting.inReset = true ∧ Inv resetting :=
  ⟨rfl, trivial, fun _ => ⟨rfl, rfl, rfl, rfl, rfl, rfl, rfl, rfl, rfl, rfl, rfl, rfl⟩, fun _ => ⟨rfl, rfl, rfl⟩,
    fun h => absurd rfl h, fun h => (nomatch h), fun h => (nomatch h)⟩

theorem witness_AssertedReset :
    (at' .cTrial [.assertReset]).turns = .assertReset :: [] ∧
    (({ at' .boot [.engine] with inReset := true } : State).inReset = true ∧ (at' .boot [.engine]).turns = [.engine]) ∧
    (({ at' .boot [.host] with inReset := true, program := [.wait] } : State).turns = .host :: [] ∧
      ({ at' .boot [.host] with inReset := true, program := [.wait] } : State).program ≠ []) := by decide

theorem witness_BootStep : engineNext (at' .boot [.engine]) [] ∧ (at' .boot [.engine]).seq = .boot := by decide

theorem witness_ResetAbandonsTheCommand :
    (at' .cSample [.assertReset, .releaseReset, .engine]).turns = .assertReset :: .releaseReset :: .engine :: [] := rfl

/-- Each readable register, and two accesses that are bus errors. -/
theorem witness_BusRead :
    hostNext { at' .idle [.host] with program := [.read 0x4#4 4 ['a']] } (.read 0x4#4 4 ['a']) [] [] ∧
    hostNext { at' .idle [.host] with program := [.read 0x8#4 4 ['r']] } (.read 0x8#4 4 ['r']) [] [] ∧
    hostNext { at' .idle [.host] with program := [.read 0x0#4 4 ['c']] } (.read 0x0#4 4 ['c']) [] [] ∧
    hostNext { at' .idle [.host] with program := [.read 0xC#4 4 ['s']] } (.read 0xC#4 4 ['s']) [] [] ∧
    hostNext { at' .idle [.host] with program := [.read 0x0#4 8 ['s']] } (.read 0x0#4 8 ['s']) [] [] := by decide

/-- An accepted write, an `ARG` write, a held write, and three bus errors. -/
theorem witness_BusWrite :
    (hostNext { at' .idle [.host] with program := [.write 0x0#4 4 1#32] } (.write 0x0#4 4 1#32) [] [] ∧
      (at' .idle [.host]).seq = .idle) ∧
    hostNext { at' .exec [.host] with program := [.write 0x4#4 4 1#32] } (.write 0x4#4 4 1#32) [] [] ∧
    hostNext { at' .idle [.host] with program := [.write 0x8#4 4 1#32] } (.write 0x8#4 4 1#32) [] [] ∧
    hostNext { at' .idle [.host] with program := [.write 0xC#4 4 1#32] } (.write 0xC#4 4 1#32) [] [] ∧
    hostNext { at' .exec [.host] with program := [.write 0x0#4 4 1#32] } (.write 0x0#4 4 1#32) [] [] ∧
    hostNext { at' .idle [.host] with program := [.write 0x5#4 4 1#32] } (.write 0x5#4 4 1#32) [] [] := by decide

theorem witness_BusErrorChangesNothing :
    step { at' .idle [.host] with program := [.read 0x0#4 4 ['s']] } =
      .next { at' .idle [] with faults := [.busError (Config.base + 0)] } := rfl

theorem witness_CommandAcceptance :
    hostNext { at' .idle [.host] with program := [.write 0x0#4 4 7#32] } (.write 0x0#4 4 7#32) [] [] ∧
    (at' .idle [.host]).seq = .idle := by decide

theorem witness_HeldWriteWaitsForIdle :
    (hostNext { at' .boot [.host] with program := [.write 0x0#4 4 7#32] } (.write 0x0#4 4 7#32) [] [] ∧
      (at' .boot [.host]).seq ≠ .idle) ∧
    ({ at' .idle [.host] with held := some 7#32 } : State).held = some 7#32 ∧
    ∃ t, step { at' .idle [.host] with held := some 7#32 } = .next t := ⟨⟨⟨rfl, rfl, rfl, rfl⟩, nofun⟩, rfl, _, rfl⟩

theorem witness_ReadsAreIdempotent :
    hostNext { at' .cTrial [.host, .host] with program := [.read 0x8#4 4 ['a'], .read 0x8#4 4 ['b']] }
      (.read 0x8#4 4 ['a']) (.read 0x8#4 4 ['b'] :: []) (.host :: []) ∧ ['a'] ≠ ['b'] := by decide

theorem witness_InitprEffect : ({ calm with opl := 1#32 } : State).opl = 1#32 ∧
    (({ calm with opl := 2#32 } : State).opl ≠ 0#32 ∧ ({ calm with opl := 2#32 } : State).opl ≠ 1#32) := by decide

theorem witness_SetresEffect : calm.opl = 0#32 ∧ ({ calm with opl := 1#32 } : State).opl = 1#32 ∧
    (({ calm with opl := 0x80000000#32 } : State).opl ≠ 0#32 ∧
      ({ calm with opl := 0x80000000#32 } : State).opl ≠ 1#32) := by decide

theorem witness_SetrescfgEffect : calm.opl = 0#32 ∧
    (({ calm with opl := 0xFFFFFFFF#32 } : State).opl ≠ 0#32 ∧
      ({ calm with opl := 0xFFFFFFFF#32 } : State).opl ≠ 1#32) := by decide

theorem witness_ErrResEffect :
    (({ calm with opl := 5#32 } : State).opl ≠ 0#32 ∧ ({ calm with opl := 5#32 } : State).opl ≠ 1#32 ∧
      Instr.setres ∈ [Instr.initpr 9#8, .setres, .setrescfg]) ∧
    (Instr.getdly ∉ [Instr.initpr 9#8, .setres, .setrescfg] ∧ Instr.getdly ≠ .conv) ∧ calm.opl = 0#32 := by decide

theorem witness_OneStepCommands : Instr.setdly ≠ .conv ∧
    engineNext (at' .boot [.engine]) [] ∧ (at' .boot [.engine]).seq = .boot := by decide

theorem witness_CommandFrame :
    (∃ t, exec .conv calm = .next t) ∧ (∃ t, exec .getdly calm = .next t) ∧ (∃ t, exec .setdly calm = .next t) ∧
    (∃ t, exec .setres calm = .next t) ∧ (∃ t, exec .setrescfg calm = .next t) ∧ ∃ t, exec .init calm = .next t :=
  ⟨⟨_, rfl⟩, ⟨_, rfl⟩, ⟨_, rfl⟩, ⟨_, rfl⟩, ⟨_, rfl⟩, _, rfl⟩

theorem witness_TrialStep : engineNext (trialing 9#4 [.engine]) [] ∧ (trialing 9#4 [.engine]).seq = .cTrial ∧
    Inv (trialing 9#4 [.engine]) := ⟨⟨rfl, rfl⟩, rfl, trialing_inv⟩

theorem witness_SettleStep : engineNext (at' .cSettle [.engine]) [] ∧ (at' .cSettle [.engine]).seq = .cSettle := by
  decide

theorem witness_SampleStep : engineNext (sampling 9#4 512#10 [.engine]) [] ∧
    (sampling 9#4 512#10 [.engine]).seq = .cSample ∧ (sampling 9#4 512#10 [.engine]).bit ≠ 0#4 ∧
    Inv (sampling 9#4 512#10 [.engine]) := ⟨⟨rfl, rfl⟩, rfl, by decide, sampling_inv⟩

theorem witness_LastSampleStep : engineNext (sampling 0#4 513#10 [.engine]) [] ∧
    (sampling 0#4 513#10 [.engine]).seq = .cSample ∧ (sampling 0#4 513#10 [.engine]).bit = 0#4 ∧
    Inv (sampling 0#4 513#10 [.engine]) := ⟨⟨rfl, rfl⟩, rfl, rfl, sampling_last_inv⟩

theorem witness_TickStep :
    (at' .cSettle [.tick]).turns = .tick :: [] ∧ (at' .cSettle [.tick]).inReset = false ∧
    ({ at' .cSettle [.tick] with scnt := 0xFFFFFFFF#32 } : State).scnt ≠ 0#32 ∧
    (at' .cSettle [.tick]).scnt = 0#32 := by decide

theorem witness_EveryStepKeepsInv : Inv (trialing 9#4 [.engine]) ∧ ∃ t, step (trialing 9#4 [.engine]) = .next t :=
  ⟨trialing_inv, _, rfl⟩

theorem witness_StepStopsOnlyOnAccessDuringReset : Inv calm := calm_inv

theorem witness_SequencerTransitions :
    (engineNext (at' .idle [.engine]) [] ∧ (at' .idle [.engine]).seq = .idle) ∧
    (∃ t, step { at' .exec [.engine] with cmdl := 4#32 } = .next t) ∧
    ∃ t, step { sampling 9#4 512#10 [.engine] with levels := [.low] } = .next t :=
  ⟨⟨⟨rfl, rfl⟩, rfl⟩, ⟨_, rfl⟩, _, rfl⟩

theorem witness_ConfigurationFixedWhileConverting :
    converting (trialing 9#4 [.engine]) ∧ ∃ t, step (trialing 9#4 [.engine]) = .next t := ⟨.inl rfl, _, rfl⟩

theorem witness_ConfigurationWriters :
    ∃ t, step { at' .exec [.engine] with cmdl := 6#32, opl := 9#32 } = .next t := ⟨_, rfl⟩

theorem witness_IllegalFlagIsSticky :
    (({ at' .exec [.engine] with ill := true, cmdl := 8#32 } : State).ill = true ∧
      ∃ t, step { at' .exec [.engine] with ill := true, cmdl := 8#32 } = .next t) ∧
    (engineNext { at' .exec [.engine] with cmdl := 0#32 } [] ∧ decode 0#32 = .error .reservedOpcode) ∧
    ({ at' .idle [.assertReset] with ill := true } : State).turns = .assertReset :: [] :=
  ⟨⟨rfl, _, rfl⟩, ⟨⟨rfl, rfl⟩, rfl⟩, rfl⟩

/-- For the rules about every step: FaultRecordOnlyGrows (an illegal word), EventsOfAStep (SETRESCFG),
OnlyHostWritesChangeArg (a write of `ARG`) and ResponseChangesOnlyAtCompletion (GETDLY). -/
theorem witness_StepRules :
    (∃ t, step { at' .exec [.engine] with cmdl := 0xF#32 } = .next t) ∧
    (∃ t, step { at' .exec [.engine] with cmdl := 9#32 } = .next t) ∧
    (∃ t, step { at' .idle [.host] with program := [.write 0x4#4 4 1#32] } = .next t) ∧
    ∃ t, step { at' .exec [.engine] with cmdl := 7#32 } = .next t := ⟨⟨_, rfl⟩, ⟨_, rfl⟩, ⟨_, rfl⟩, ⟨_, rfl⟩⟩

/-- An accepted conversion under EIGHT_BIT with a delay of 1, V-C3's levels, and the turns of the engine and ticks. -/
def convStart : State :=
  { at' .exec (conversionTurns .eightBit 1) with
    cmdl := 4#32, res := .eightBit, delay := 1#32
    levels := [.low, .high, .low, .high, .high, .low, .high, .low] }

/-- For ConversionRunsTheAlgorithm, BitDecisionLaw, ConversionEventOrder, TrialValues, ConversionRange and
ConversionLatency: the conversion is accepted and completes with V-C3's code 90, with all its turns used (so the used
turns are `convStart.turns`) and no free turn taken. -/
theorem witness_WholeConversion : convAccepted convStart ∧ convStart.turnNo = 0 ∧
    (runToIdle 34 convStart).map (fun t => (t.rsp, t.turns, t.turnNo)) = some (90#32, [], 0) :=
  ⟨⟨rfl, rfl, rfl⟩, rfl, by decide⟩

theorem witness_ThresholdLaw :
    (runToIdle 34 convStart).map (fun t => readsFollow (thresholdMock 90) 0 (t.hist.drop convStart.hist.length)) =
      some true := by decide

theorem witness_TrialWaitsItsDelay :
    (runToSample 4 { trialing 9#4 [.engine, .tick, .engine] with delay := 1#32 }).map
      (fun t => (t.turns, t.turnNo)) = some ([], 0) := by decide

theorem witness_ConversionCompletes : convAccepted convStart ∧
    convStart.levels.length = top convStart.res + 1 ∧
    convStart.turns = conversionTurns convStart.res convStart.delay.toNat ++ [] := by decide

theorem witness_Progress : Inv (trialing 9#4 [.engine]) ∧ (trialing 9#4 [.engine]).inReset = false :=
  ⟨trialing_inv, rfl⟩

theorem witness_HostPrograms :
    ({ at' .idle ([.host, .host, .engine, .host, .host, .engine, .host, .host] ++ []) with
        program := expand (.setdly 0) ++ expand (.getdly ['d']) ++ [] } : State).program =
      expand (.setdly 0) ++ expand (.getdly ['d']) ++ [] ∧
    ({ at' .idle ([.host, .host, .engine, .host, .host, .host, .engine, .host, .host] ++ []) with
        program := expand (.setres 2) ++ expand (.getres ['r']) ++ [] } : State).program =
      expand (.setres 2) ++ expand (.getres ['r']) ++ [] ∧
    (4294967295 : Nat) < 2 ^ 32 ∧ ['r'] ≠ returnCode ∧ calm.held = none ∧ calm.inReset = false := by decide

/-- A GETDLY polled once too early, as the transactions of 95_test_vectors.md section 9 have it. -/
def polling : State :=
  { at' .idle [.host, .host, .engine, .host, .host] with program := expand (.getdly ['d']) }

theorem witness_TransactionsAreTheAssembledForm :
    (nextView outstanding (Host.Core.run core 5 polling) = some []) ∧
    transactionsOf 5 polling =
      [.write 0x0#4 7#32 [0x07#8, 0x00#8, 0x00#8, 0x00#8], .read 0xC#4 (some 1#32), .read 0xC#4 (some 0#32),
        .read 0x8#4 (some 60#32)] := by decide

/-- LittleEndianWindow at the last byte of each register. -/
theorem witness_LittleEndianWindow : (3 : Nat) < 4 ∧ 4 + 3 < 2 ^ 4 ∧ 12 + 3 < 2 ^ 4 := by decide

end Sys2Proof.Tests
end

section
/-! Which steps go on. Under the invariant the accumulator takes every write the engine makes (spec/00_scope.md R9,
spec/41_conversion.md R110), so only the host can be stopped, by an access while reset is asserted
(spec/70_reset_and_hazards.md R133). -/

namespace Sys2Proof.Machine

/-! ### The accumulator fits -/

theorem two_pow_top_succ_le (r : Resolution) : 2 ^ (top r + 1) ≤ 1024 := by cases r <;> decide

theorem Inv.trial_shape {s : State} (h : Inv s) (hs : s.seq = .cTrial) :
    s.bit.toNat ≤ top s.res ∧ s.acc.toNat < 2 ^ (top s.res + 1) ∧ s.acc.toNat % 2 ^ (s.bit.toNat + 1) = 0 := by
  simpa only [conversionShape, hs] using h.conversion

theorem Inv.sample_shape {s : State} (h : Inv s) (hs : s.seq = .cSample) :
    s.bit.toNat ≤ top s.res ∧ s.acc.toNat < 2 ^ (top s.res + 1) ∧
      s.acc.toNat % 2 ^ (s.bit.toNat + 1) = 2 ^ s.bit.toNat ∧ s.scnt = 0#32 := by
  simpa only [conversionShape, hs] using h.conversion

/-- The trial value fits the accumulator (41_conversion.md R104, R110). -/
theorem Inv.trial_fits {s : State} (h : Inv s) (hs : s.seq = .cTrial) :
    s.acc.toNat + 2 ^ s.bit.toNat < 1024 := by
  obtain ⟨hbit, hacc, hlow⟩ := h.trial_shape hs
  exact (setBit_arith hbit hacc hlow).1.trans_le (two_pow_top_succ_le s.res)

/-- The bit that a LOW sample clears is set (41_conversion.md R106, R110). -/
theorem Inv.sample_fits {s : State} (h : Inv s) (hs : s.seq = .cSample) : 2 ^ s.bit.toNat ≤ s.acc.toNat := by
  obtain ⟨-, -, hlow, -⟩ := h.sample_shape hs
  exact (clearBit_arith hlow).1

theorem decideBit_isSome (l : Level) {b : Nat} {acc : BitVec 10} (h : 2 ^ b ≤ acc.toNat) :
    ∃ a, decideBit l b acc = some a := by
  cases l with
  | high => exact ⟨acc, rfl⟩
  | low => exact ⟨_, if_pos h⟩

/-! ### The engine goes on -/

theorem trialStep_goesOn {s : State} (h : s.acc.toNat + 2 ^ s.bit.toNat < 1024) : ∃ t, trialStep s = .next t :=
  ⟨_, if_pos h⟩

theorem sampleStep_goesOn {s : State} (h : 2 ^ s.bit.toNat ≤ s.acc.toNat) : ∃ t, sampleStep s = .next t := by
  obtain ⟨a, ha⟩ := decideBit_isSome (sample s.pin s).1 h
  exact ⟨_, by rw [sampleStep, ha]⟩

theorem exec_goesOn (i : Instr) (s : State) : ∃ t, exec i s = .next t := by
  obtain ⟨-, h⟩ | ⟨-, h⟩ | ⟨-, _, _, _, h⟩ | ⟨-, _, h⟩ | ⟨-, _, h⟩ | ⟨-, h⟩ | ⟨-, _, h⟩ := exec_cases i s <;>
    exact ⟨_, h⟩

theorem executeCommand_goesOn (s : State) : ∃ t, executeCommand s = .next t := by
  unfold executeCommand
  split
  · exact exec_goesOn _ s
  · exact ⟨_, rfl⟩

theorem engineStep_goesOn {s : State} (h : Inv s) : ∃ t, engineStep s = .next t := by
  by_cases hr : s.inReset = true
  · exact ⟨s, if_pos hr⟩
  · rw [engineStep, if_neg hr]
    cases hs : s.seq with
    | boot => exact ⟨_, rfl⟩
    | idle => exact ⟨_, rfl⟩
    | exec => exact executeCommand_goesOn s
    | cTrial => exact trialStep_goesOn (h.trial_fits hs)
    | cSettle => exact ⟨_, rfl⟩
    | cSample => exact sampleStep_goesOn (h.sample_fits hs)

/-! ### The host goes on or is refused -/

theorem hostStep_goesOn_or_refused (s : State) :
    (∃ t, hostStep s = .next t) ∨
    (hostStep s = .refused .accessDuringReset ∧ s.inReset = true ∧ (s.held ≠ none ∨ s.program ≠ [])) := by
  unfold hostStep
  split
  · exact .inl ⟨s, rfl⟩
  · rename_i v hheld
    by_cases hr : s.inReset = true
    · exact .inr ⟨if_pos hr, hr, .inl (by simp [hheld])⟩
    · exact .inl ⟨_, if_neg hr⟩
  · rename_i st rest _ hprog
    by_cases hr : s.inReset = true
    · exact .inr ⟨if_pos hr, hr, .inr (by simp [hprog])⟩
    · exact .inl ⟨_, if_neg hr⟩

/-! ### Every agent -/

/-- No part of the invariant speaks of the turns. -/
theorem Inv.withTurns {s : State} (h : Inv s) (ts : List Turn) (k : Nat) : Inv { s with turns := ts, turnNo := k } :=
  ⟨h.conversion, h.boot, h.reset, h.ports, h.errors⟩

theorem agentStep_goesOn_or_refused (turn : Turn) {s : State} (h : Inv s) :
    (∃ t, agentStep turn s = .next t) ∨
    (agentStep turn s = .refused .accessDuringReset ∧ s.inReset = true ∧ (s.held ≠ none ∨ s.program ≠ [])) := by
  cases turn with
  | host => exact hostStep_goesOn_or_refused s
  | engine => exact .inl (engineStep_goesOn h)
  | tick => exact .inl ⟨_, rfl⟩
  | assertReset => exact .inl ⟨_, rfl⟩
  | releaseReset => exact .inl ⟨_, rfl⟩

/-- Settles O36: the step is that of the agent whose turn it is, and taking the turn keeps the invariant, the reset
input and what the host has left. -/
theorem stepStopsOnlyOnAccessDuringReset : Obligations.StepStopsOnlyOnAccessDuringReset := by
  intro s h
  rw [step, takeTurn_snd]
  exact agentStep_goesOn_or_refused (takeTurn s).1 (h.withTurns _ _)

end Sys2Proof.Machine
end

section
/-! The frame of each agent: which registers its step leaves (spec/00_scope.md R16, R17). Each agent that goes on
leaves every field but those its equation names; the rules of spec/10_state.md are read off these frames. -/

namespace Sys2Proof.Machine

/-! ### Commands -/

/-- No command writes the latches, `ARG`, `SCNT`, `ILL` or anything of the run around SARE (40_configuration.md
section 3). -/
theorem exec_frame {i : Instr} {s t : State} (h : exec i s = .next t) :
    t = { s with
      res := t.res, delay := t.delay, pin := t.pin, bres := t.bres, hist := t.hist, rsp := t.rsp, last := t.last,
      seq := t.seq, acc := t.acc, bit := t.bit } := by
  obtain ⟨-, h'⟩ | ⟨-, h'⟩ | ⟨-, _, _, _, h'⟩ | ⟨-, _, h'⟩ | ⟨-, _, h'⟩ | ⟨-, h'⟩ | ⟨-, _, h'⟩ := exec_cases i s <;>
    cases h'.symm.trans h <;> rfl

/-- CONV goes to its first trial, at the top bit; every other command completes in this step, and leaves `BIT`. -/
theorem exec_starts_or_completes {i : Instr} {s t : State} (h : exec i s = .next t) :
    (i = .conv ∧ t = { s with acc := 0#10, seq := .cTrial, bit := BitVec.ofNat 4 (top s.res) }) ∨
    (i ≠ .conv ∧ t.seq = .idle ∧ t.bit = s.bit) := by
  by_cases hi : i = .conv
  · subst hi
    cases h
    exact .inl ⟨rfl, rfl⟩
  · refine .inr ⟨hi, ?_⟩
    obtain ⟨hc, -⟩ | ⟨-, h'⟩ | ⟨-, _, _, _, h'⟩ | ⟨-, _, h'⟩ | ⟨-, _, h'⟩ | ⟨-, h'⟩ | ⟨-, _, h'⟩ := exec_cases i s
    · exact absurd hc hi
    all_goals cases h'.symm.trans h; exact ⟨rfl, rfl⟩

/-! ### Agents -/

/-- Outside `BOOT` and `EXEC` the engine only carries a conversion on, and leaves the configuration, the latches, `ILL`
and the fault record (41_conversion.md R104 to R107, R115). -/
theorem engineStep_boot_or_exec_or_frame {s t : State} (h : engineStep s = .next t) :
    (s.seq = .boot ∧ t = bootStep s) ∨
    (s.seq = .exec ∧ ∃ i, decode s.cmdl = .ok i ∧ exec i s = .next t) ∨
    (s.seq = .exec ∧ ∃ e, decode s.cmdl = .error e ∧ t = raiseIllegal s.cmdl s) ∨
    t = { s with
      acc := t.acc, bit := t.bit, scnt := t.scnt, seq := t.seq, rsp := t.rsp, last := t.last, hist := t.hist,
      levels := t.levels, draws := t.draws } := by
  obtain ⟨-, rfl⟩ | ⟨-, hboot | hexec | hillegal | ⟨-, h⟩ | ⟨-, -, rfl⟩ | ⟨-, h⟩⟩ := engineStep_next h
  · exact .inr (.inr (.inr rfl))
  · exact .inl hboot
  · exact .inr (.inl hexec)
  · exact .inr (.inr (.inl hillegal))
  · obtain ⟨-, rfl⟩ := trialStep_next h
    exact .inr (.inr (.inr rfl))
  · exact .inr (.inr (.inr rfl))
  · obtain ⟨_, _, -, -, rfl⟩ := sampleStep_next h
    exact .inr (.inr (.inr rfl))

/-- The engine has no access to `ARG`, the latches or the host (10_state.md R32, R38). -/
theorem engineStep_frame {s t : State} (h : engineStep s = .next t) :
    t = { s with
      res := t.res, delay := t.delay, pin := t.pin, bres := t.bres, acc := t.acc, bit := t.bit, scnt := t.scnt,
      seq := t.seq, rsp := t.rsp, last := t.last, ill := t.ill, hist := t.hist, faults := t.faults,
      levels := t.levels, draws := t.draws } := by
  obtain ⟨-, rfl⟩ | ⟨-, _, -, h⟩ | ⟨-, _, -, rfl⟩ | h := engineStep_boot_or_exec_or_frame h
  · rfl
  · rw [exec_frame h]
  · rfl
  · rw [h]

theorem hostStmt_frame (st : HostStmt) (s : State) :
    hostStmt st s = { s with
      cmdl := (hostStmt st s).cmdl, opl := (hostStmt st s).opl, arg := (hostStmt st s).arg,
      seq := (hostStmt st s).seq, held := (hostStmt st s).held, faults := (hostStmt st s).faults,
      program := (hostStmt st s).program, names := (hostStmt st s).names } := by
  obtain ⟨_, -, h⟩ | ⟨_, -, h⟩ | ⟨_, -, h⟩ | ⟨_, h⟩ | ⟨_, h⟩ | ⟨-, h⟩ := hostStmt_cases st s <;> rw [h] <;> rfl

/-- The host reaches SARE only through `ARG` and the acceptance of a command (20_memory.md R47, R50). -/
theorem hostStep_frame {s t : State} (h : hostStep s = .next t) :
    t = { s with
      cmdl := t.cmdl, opl := t.opl, arg := t.arg, seq := t.seq, held := t.held, faults := t.faults,
      program := t.program, names := t.names } := by
  obtain ⟨-, -, rfl⟩ | ⟨-, _, -, ⟨-, rfl⟩ | ⟨-, rfl⟩⟩ | ⟨-, -, st, rest, -, rfl⟩ := hostStep_next h
  · rfl
  · rfl
  · rfl
  · exact hostStmt_frame st { s with program := rest }

/-- A tick counts `SCNT` and nothing else (60_exceptions.md R127). -/
theorem tickStep_frame (s : State) : tickStep s = { s with scnt := (tickStep s).scnt } := by
  obtain ⟨h, -⟩ | ⟨-, -, -, h⟩ := tickStep_cases s <;> rw [h]

/-- Only the engine and an asserted reset write the configuration, `ACC`, `BIT`, `RSP`, `LAST`, `ILL` and the history:
every other step leaves them. -/
theorem step_engine_or_reset_or_frame {s t : State} (h : step s = .next t) :
    (∃ ts k, engineStep { s with turns := ts, turnNo := k } = .next t) ∨
    (∃ ts k, t = assertReset { s with turns := ts, turnNo := k }) ∨
    t = { s with
      scnt := t.scnt, seq := t.seq, cmdl := t.cmdl, opl := t.opl, arg := t.arg, inReset := t.inReset, held := t.held,
      faults := t.faults, program := t.program, names := t.names, turns := t.turns, turnNo := t.turnNo } := by
  obtain ⟨ts, k, h | h | rfl | rfl | rfl⟩ := step_next h
  · exact .inr (.inr (by rw [hostStep_frame h]))
  · exact .inl ⟨ts, k, h⟩
  · exact .inr (.inr (by rw [tickStep_frame]))
  · exact .inr (.inl ⟨ts, k, rfl⟩)
  · exact .inr (.inr rfl)

end Sys2Proof.Machine
end

section
/-! The rules of spec/10_state.md about single registers: `SEQ` and `BIT` (R33), the configuration (R20 to R27),
`STATUS` (R34 to R37), `ARG` (R38) and `RSP` (R39). -/

namespace Sys2Proof.Machine

/-! ### `STATUS` (R34 to R36) -/

theorem completionBits_ne_three (c : Completion) : completionBits c ≠ 3#2 := by cases c <;> decide

theorem busy_eq_decide (s : State) : busy s = decide (s.seq ≠ .idle) := by
  simp [busy, bne, beq_eq_decide]

/-- `STATUS` bit by bit: `BUSY`, the two bits of `LAST`, `ILL`, and zeros (20_memory.md R45). -/
theorem statusWord_getLsbD (s : State) (k : Nat) :
    (statusWord s).getLsbD k =
      if k = 0 then busy s else if k < 3 then (completionBits s.last).getLsbD (k - 1) else decide (k = 3) && s.ill := by
  unfold statusWord
  rw [BitVec.getLsbD_append, BitVec.getLsbD_append, BitVec.getLsbD_append]
  obtain rfl | rfl | rfl | rfl | hk : k = 0 ∨ k = 1 ∨ k = 2 ∨ k = 3 ∨ 4 ≤ k := by omega
  · simp
  · simp
  · simp
  · simp
  · simp [show k ≠ 0 by omega, show ¬ k < 3 by omega, show k ≠ 3 by omega, show ¬ k - 1 < 2 by omega,
      show k - 1 - 2 ≠ 0 by omega]

theorem statusWord_last (s : State) : (statusWord s).extractLsb' 1 2 = completionBits s.last := by
  ext i hi
  simp [statusWord_getLsbD, show 1 + i < 3 by omega, BitVec.getLsbD_eq_getElem hi]

theorem statusWord_reserved (s : State) : (statusWord s).extractLsb' 4 28 = 0#28 := by
  ext i hi
  simp [statusWord_getLsbD, show ¬ 4 + i < 3 by omega, show 4 + i ≠ 3 by omega]

/-- Settles O16: each field is read off the concatenation that makes `STATUS`. -/
theorem statusFields : Obligations.StatusFields := by
  intro s
  rw [statusWord_getLsbD, statusWord_last, statusWord_getLsbD, statusWord_reserved]
  refine ⟨busy_eq_decide s, ?_, completionBits_ne_three s.last, rfl, rfl⟩
  cases s.last <;> rfl

/-! ### The sequencer (R33) -/

theorem engineStep_idle {s : State} (hs : s.seq = .idle) : engineStep s = .next s := by
  simp [engineStep, hs]

theorem hostStmt_seq (st : HostStmt) (s : State) :
    (hostStmt st s).seq = s.seq ∨ (s.seq = .idle ∧ (hostStmt st s).seq = .exec) := by
  obtain ⟨_, -, h⟩ | ⟨_, hs, h⟩ | ⟨_, -, h⟩ | ⟨_, h⟩ | ⟨_, h⟩ | ⟨-, h⟩ := hostStmt_cases st s <;> rw [h]
  · exact .inl rfl
  · exact .inr ⟨hs, rfl⟩
  all_goals exact .inl rfl

/-- The host moves `SEQ` only by having a command accepted (20_memory.md R50, R51). -/
theorem hostStep_seq {s t : State} (h : hostStep s = .next t) :
    t.seq = s.seq ∨ (s.seq = .idle ∧ t.seq = .exec) := by
  obtain ⟨-, -, rfl⟩ | ⟨-, _, -, ⟨hs, rfl⟩ | ⟨-, rfl⟩⟩ | ⟨-, -, st, rest, -, rfl⟩ := hostStep_next h
  · exact .inl rfl
  · exact .inr ⟨hs, rfl⟩
  · exact .inl rfl
  · exact hostStmt_seq st { s with program := rest }

theorem top_toNat (r : Resolution) : (BitVec.ofNat 4 (top r)).toNat = top r := by cases r <;> rfl

/-- A sample of bit 0 completes the command, and one of a higher bit goes to the trial of the bit below it, with `RSP`
still the previous response (41_conversion.md R106, R107; 70_reset_and_hazards.md R140). -/
theorem sampleStep_completes_or_nextTrial {s t : State} (h : sampleStep s = .next t) :
    (s.bit = 0#4 ∧ t.seq = .idle ∧ t.bit = s.bit) ∨
    (s.bit ≠ 0#4 ∧ t.seq = .cTrial ∧ t.bit = s.bit - 1#4 ∧ t.rsp = s.rsp) := by
  obtain ⟨_, _, -, -, rfl⟩ := sampleStep_next h
  by_cases hb : s.bit = 0#4
  · exact .inl (by simp [hb])
  · exact .inr (by simp [hb])

/-- R33's table: `SEQ` and `BIT` stay; reset is asserted; a row that leaves `BIT`, with its guard; CONV's start; the
next trial. -/
def sequencerTransition (s t : State) : Prop :=
  (t.seq = s.seq ∧ t.bit = s.bit) ∨
  (t.seq = .boot ∧ t.bit = 0#4 ∧ t.inReset = true) ∨
  (t.bit = s.bit ∧
    ((s.seq = .boot ∧ t.seq = .idle) ∨ (s.seq = .idle ∧ t.seq = .exec) ∨
      (s.seq = .exec ∧ decode s.cmdl ≠ .ok .conv ∧ t.seq = .idle) ∨
      (s.seq = .cTrial ∧ t.seq = .cSettle) ∨ (s.seq = .cSettle ∧ t.seq = .cSample) ∨
      (s.seq = .cSample ∧ s.bit = 0#4 ∧ t.seq = .idle))) ∨
  (s.seq = .exec ∧ decode s.cmdl = .ok .conv ∧ t.seq = .cTrial ∧ t.bit.toNat = top s.res) ∨
  (s.seq = .cSample ∧ t.seq = .cTrial ∧ t.bit.toNat + 1 = s.bit.toNat)

theorem hostStep_transition {s t : State} (h : hostStep s = .next t) : sequencerTransition s t := by
  have hbit : t.bit = s.bit := by rw [hostStep_frame h]
  obtain hseq | hseq := hostStep_seq h
  · exact .inl ⟨hseq, hbit⟩
  · exact .inr (.inr (.inl ⟨hbit, .inr (.inl hseq)⟩))

theorem engineStep_transition {s t : State} (h : engineStep s = .next t) : sequencerTransition s t := by
  obtain ⟨-, rfl⟩ | ⟨-, ⟨hs, rfl⟩ | ⟨hs, i, hi, h⟩ | ⟨hs, e, he, rfl⟩ | ⟨hs, h⟩ | ⟨hs, -, rfl⟩ | ⟨hs, h⟩⟩ :=
    engineStep_next h
  · exact .inl ⟨rfl, rfl⟩
  · exact .inr (.inr (.inl ⟨rfl, .inl ⟨hs, rfl⟩⟩))
  · obtain ⟨rfl, rfl⟩ | ⟨hne, hseq, hbit⟩ := exec_starts_or_completes h
    · exact .inr (.inr (.inr (.inl ⟨hs, hi, rfl, top_toNat s.res⟩)))
    · exact .inr (.inr (.inl ⟨hbit, .inr (.inr (.inl ⟨hs, by simpa [hi] using hne, hseq⟩))⟩))
  · exact .inr (.inr (.inl ⟨rfl, .inr (.inr (.inl ⟨hs, by simp [he], rfl⟩))⟩))
  · obtain ⟨-, rfl⟩ := trialStep_next h
    exact .inr (.inr (.inl ⟨rfl, .inr (.inr (.inr (.inl ⟨hs, rfl⟩)))⟩))
  · exact .inr (.inr (.inl ⟨rfl, .inr (.inr (.inr (.inr (.inl ⟨hs, rfl⟩))))⟩))
  · obtain ⟨hb, hseq, hbit⟩ | ⟨hb, hseq, hbit, -⟩ := sampleStep_completes_or_nextTrial h
    · exact .inr (.inr (.inl ⟨hbit, .inr (.inr (.inr (.inr (.inr ⟨hs, hb, hseq⟩))))⟩))
    · exact .inr (.inr (.inr (.inr ⟨hs, hseq, hbit ▸ bit_pred_toNat s.bit hb⟩)))

/-- Settles O37: host and engine move along the table, a tick and the release of reset move nothing, and an asserted
reset goes to `BOOT`. -/
theorem sequencerTransitions : Obligations.SequencerTransitions := by
  refine ⟨fun s ts hnext hs => ?_, fun s t h => ?_⟩
  · obtain ⟨hturns, -⟩ := hnext
    rw [step_of_turns hturns]
    exact engineStep_idle hs
  · obtain ⟨_, _, h | h | rfl | rfl | rfl⟩ := step_next h
    · exact (hostStep_transition h :)
    · exact (engineStep_transition h :)
    · rw [tickStep_frame]
      exact .inl ⟨rfl, rfl⟩
    · exact .inr (.inl ⟨rfl, rfl, rfl⟩)
    · exact .inl ⟨rfl, rfl⟩

/-! ### The configuration (R20 to R27) -/

/-- `RES`, `DELAY`, `PIN` and `BRES` are as they were. -/
def sameConfiguration (s t : State) : Prop := t.res = s.res ∧ t.delay = s.delay ∧ t.pin = s.pin ∧ t.bres = s.bres

/-- `i` is listed as a writer of each configuration register that differs (10_state.md R20, R22, R24, R27). -/
def configurationWriter (i : Instr) (s t : State) : Prop :=
  i ≠ .conv ∧ i ≠ .getdly ∧ i ≠ .getres ∧
  (t.res = s.res ∨ i ≠ .setdly) ∧ (t.bres = s.bres ∨ (i ≠ .setdly ∧ i ≠ .setres)) ∧
  (t.pin = s.pin ∨ (i ≠ .setdly ∧ i ≠ .setres ∧ i ≠ .setrescfg)) ∧
  (t.delay = s.delay ∨ (i ≠ .setres ∧ i ≠ .setrescfg))

theorem exec_configuration {i : Instr} {s t : State} (h : exec i s = .next t) :
    sameConfiguration s t ∨ configurationWriter i s t := by
  obtain ⟨-, h'⟩ | ⟨-, h'⟩ | ⟨hi, _, _, _, h'⟩ | ⟨rfl, _, h'⟩ | ⟨rfl, _, h'⟩ | ⟨rfl, h'⟩ | ⟨-, _, h'⟩ := exec_cases i s
    <;> cases h'.symm.trans h
  · exact .inl ⟨rfl, rfl, rfl, rfl⟩
  · exact .inl ⟨rfl, rfl, rfl, rfl⟩
  · obtain ⟨_, rfl⟩ | ⟨_, rfl⟩ | rfl := hi <;> exact .inr (by simp [configurationWriter])
  · exact .inr (by simp [configurationWriter])
  · exact .inr (by simp [configurationWriter])
  · exact .inr (by simp [configurationWriter])
  · exact .inl ⟨rfl, rfl, rfl, rfl⟩

theorem engineStep_configuration {s t : State} (h : engineStep s = .next t) :
    sameConfiguration s t ∨ s.seq = .boot ∨
    (s.seq = .exec ∧ ∃ i, decode s.cmdl = .ok i ∧ configurationWriter i s t) := by
  obtain ⟨hs, -⟩ | ⟨hs, i, hi, h⟩ | ⟨-, _, -, rfl⟩ | h := engineStep_boot_or_exec_or_frame h
  · exact .inr (.inl hs)
  · exact (exec_configuration h).imp_right fun hw => .inr ⟨hs, i, hi, hw⟩
  · exact .inl ⟨rfl, rfl, rfl, rfl⟩
  · rw [h]
    exact .inl ⟨rfl, rfl, rfl, rfl⟩

/-- Settles O39: of the agents only the engine and an asserted reset write the configuration, and of the engine's steps
only the boot step and those of the commands listed. -/
theorem configurationWriters : Obligations.ConfigurationWriters := by
  intro s t h
  obtain ⟨_, _, h⟩ | ⟨_, _, rfl⟩ | h := step_engine_or_reset_or_frame h
  · exact (engineStep_configuration h).imp_right .inr
  · exact .inr (.inl rfl)
  · rw [h]
    exact .inl ⟨rfl, rfl, rfl, rfl⟩

/-! ### `ILL` (R37) -/

theorem engineStep_illegal {s : State} {e : Illegal} (hr : s.inReset = false) (hs : s.seq = .exec)
    (he : decode s.cmdl = .error e) : engineStep s = .next (raiseIllegal s.cmdl s) := by
  simp [engineStep, hr, hs, executeCommand, he]

theorem engineStep_keeps_ill {s t : State} (h : engineStep s = .next t) (hill : s.ill = true) : t.ill = true := by
  obtain ⟨-, rfl⟩ | ⟨-, _, -, h⟩ | ⟨-, _, -, rfl⟩ | h := engineStep_boot_or_exec_or_frame h
  · exact hill
  · rw [exec_frame h]
    exact hill
  · rfl
  · rw [h]
    exact hill

/-- Settles O40: the engine only sets `ILL`, and of the other agents only reset writes it. -/
theorem illegalFlagIsSticky : Obligations.IllegalFlagIsSticky := by
  refine ⟨fun s t hill h => ?_, fun s ts e hnext hs he => ?_, fun s ts hturns => ?_⟩
  · obtain ⟨_, _, h⟩ | ⟨_, _, rfl⟩ | h := step_engine_or_reset_or_frame h
    · exact .inl (engineStep_keeps_ill h hill)
    · exact .inr ⟨rfl, rfl⟩
    · rw [h]
      exact .inl hill
  · obtain ⟨hturns, hr⟩ := hnext
    rw [step_of_turns hturns]
    exact ⟨_, engineStep_illegal hr hs he, rfl⟩
  · exact ⟨_, step_of_turns hturns, rfl⟩

/-! ### `ARG` (R38) -/

theorem hostStmt_arg (st : HostStmt) (s : State) :
    (hostStmt st s).arg = s.arg ∨
    (st = .write 0x4#4 4 (hostStmt st s).arg ∧ (hostStmt st s).program = s.program) := by
  obtain ⟨_, rfl, h⟩ | ⟨_, -, h⟩ | ⟨_, -, h⟩ | ⟨_, h⟩ | ⟨_, h⟩ | ⟨-, h⟩ := hostStmt_cases st s <;> rw [h]
  · exact .inr ⟨rfl, rfl⟩
  all_goals exact .inl rfl

theorem hostStep_arg {s t : State} (h : hostStep s = .next t) :
    t.arg = s.arg ∨ (s.held = none ∧ ∃ rest, s.program = .write 0x4#4 4 t.arg :: rest ∧ t.program = rest) := by
  obtain ⟨-, -, rfl⟩ | ⟨-, _, -, ⟨-, rfl⟩ | ⟨-, rfl⟩⟩ | ⟨-, hheld, st, rest, hprog, rfl⟩ := hostStep_next h
  · exact .inl rfl
  · exact .inl rfl
  · exact .inl rfl
  · obtain harg | ⟨hst, hrest⟩ := hostStmt_arg st { s with program := rest }
    · exact .inl harg
    · exact .inr ⟨hheld, rest, by rw [← hst, hprog], hrest⟩

/-- Settles O43: no engine step and no tick reaches `ARG`. -/
theorem onlyHostWritesChangeArg : Obligations.OnlyHostWritesChangeArg := by
  intro s t h
  obtain ⟨_, _, h | h | rfl | rfl | rfl⟩ := step_next h
  · exact (hostStep_arg h).imp_right .inr
  · exact .inl (by rw [engineStep_frame h])
  · exact .inl (by rw [tickStep_frame])
  · exact .inr (.inl rfl)
  · exact .inl rfl

/-! ### `RSP` (R39) -/

theorem engineStep_rsp {s t : State} (h : engineStep s = .next t) :
    t.rsp = s.rsp ∨ (s.seq ≠ .idle ∧ t.seq = .idle) := by
  obtain ⟨-, rfl⟩ | ⟨-, ⟨hs, rfl⟩ | ⟨hs, _, -, h⟩ | ⟨-, _, -, rfl⟩ | ⟨-, h⟩ | ⟨-, -, rfl⟩ | ⟨hs, h⟩⟩ := engineStep_next h
  · exact .inl rfl
  · exact .inr ⟨by simp [hs], rfl⟩
  · obtain ⟨-, rfl⟩ | ⟨-, hseq, -⟩ := exec_starts_or_completes h
    · exact .inl rfl
    · exact .inr ⟨by simp [hs], hseq⟩
  · exact .inl rfl
  · obtain ⟨-, rfl⟩ := trialStep_next h
    exact .inl rfl
  · exact .inl rfl
  · obtain ⟨-, hseq, -⟩ | ⟨-, -, -, hrsp⟩ := sampleStep_completes_or_nextTrial h
    · exact .inr ⟨by simp [hs], hseq⟩
    · exact .inl hrsp

/-- Settles O44: of the agents only the engine and an asserted reset write `RSP`, and the engine does so only in a step
that ends in `IDLE`. -/
theorem responseChangesOnlyAtCompletion : Obligations.ResponseChangesOnlyAtCompletion := by
  intro s t h
  obtain ⟨_, _, h⟩ | ⟨_, _, rfl⟩ | h := step_engine_or_reset_or_frame h
  · exact (engineStep_rsp h).imp_right .inr
  · exact .inr (.inl rfl)
  · exact .inl (by rw [h])

end Sys2Proof.Machine
end

section
/-! The rules of spec/20_memory.md about the register window: which access reads or writes which register, which one is
a bus error (R43 to R48), and when a `CMD` write is accepted or held (R50, R51). -/

namespace Sys2Proof.Machine

/-! ### The host's turn -/

theorem step_of_hostNext {s : State} {st : HostStmt} {rest : List HostStmt} {ts : List Turn}
    (h : hostNext s st rest ts) : step s = .next (hostStmt st { s with turns := ts, program := rest }) := by
  obtain ⟨hturns, hr, hheld, hprog⟩ := h
  rw [step_of_turns hturns]
  simp [agentStep, hostStep, hr, hheld, hprog]

/-- A held write is completed by the first host step in `IDLE`; until then the host has no step (20_memory.md R51). -/
theorem hostStep_of_held {s : State} {v : Word} (hheld : s.held = some v) (hr : s.inReset = false) :
    hostStep s = .next (if s.seq = .idle then accept v { s with held := none } else s) := by
  simp [hostStep, hheld, hr]

/-! ### Which register an access reaches (R42, R44, R45, R47) -/

/-- An aligned offset is that of one of the four registers (20_memory.md R42). -/
theorem register_of_aligned {off : Offset} (h : busAddr off % 4 = 0) :
    off = 0x0#4 ∨ off = 0x4#4 ∨ off = 0x8#4 ∨ off = 0xC#4 := by
  rw [busAddr_mod_four] at h
  revert off
  decide

theorem not_legalAccess_iff (off : Offset) (n : Nat) :
    ¬ legalAccess off n = true ↔ n ≠ 4 ∨ busAddr off % 4 ≠ 0 := by
  rw [legalAccess_iff, not_and_or]

theorem memRead_eq (off : Offset) (n : Nat) (s : State) :
    memRead off n s =
      if n ≠ 4 ∨ busAddr off % 4 ≠ 0 ∨ off = 0x0#4 then none
      else some (if off = 0x4#4 then s.arg else if off = 0x8#4 then s.rsp else statusWord s) := by
  by_cases hl : legalAccess off n = true
  · obtain ⟨rfl, ha⟩ := (legalAccess_iff off n).1 hl
    obtain rfl | rfl | rfl | rfl := register_of_aligned ha <;> simp [memRead, hl, ha]
  · rw [if_pos (or_assoc.1 (.inl ((not_legalAccess_iff off n).1 hl)))]
    exact if_neg hl

theorem memWrite_eq (off : Offset) (n : Nat) (v : Word) (s : State) :
    memWrite off n v s =
      if n ≠ 4 ∨ busAddr off % 4 ≠ 0 ∨ off = 0x8#4 ∨ off = 0xC#4 then raiseBusError off s
      else if off = 0x4#4 then { s with arg := v }
      else commandWrite v s := by
  by_cases hl : legalAccess off n = true
  · obtain ⟨rfl, ha⟩ := (legalAccess_iff off n).1 hl
    obtain rfl | rfl | rfl | rfl := register_of_aligned ha <;> simp [memWrite, hl, ha]
  · rw [if_pos (or_assoc.1 (.inl ((not_legalAccess_iff off n).1 hl)))]
    exact if_neg hl

/-! ### Host statements that access the window -/

theorem step_of_write_cmd_idle {s : State} {v : Word} {rest : List HostStmt} {ts : List Turn}
    (h : hostNext s (.write 0x0#4 4 v) rest ts) (hs : s.seq = .idle) :
    step s = .next (accept v { s with turns := ts, program := rest }) := by
  rw [step_of_hostNext h]
  exact congrArg _ (if_pos hs)

theorem step_of_write_cmd_busy {s : State} {v : Word} {rest : List HostStmt} {ts : List Turn}
    (h : hostNext s (.write 0x0#4 4 v) rest ts) (hs : s.seq ≠ .idle) :
    step s = .next { s with turns := ts, program := rest, held := some v } := by
  rw [step_of_hostNext h]
  exact congrArg _ (if_neg hs)

/-- What a read gives does not depend on the host's position, its names or the turn. -/
theorem memRead_congr_host (off : Offset) (n : Nat) (s : State) (ts : List Turn) (p : List HostStmt)
    (names : List (Name × Word)) :
    memRead off n { s with turns := ts, program := p, names := names } = memRead off n s := rfl

section
variable {s : State} {off : Offset} {n : Nat} {name : Name} {rest : List HostStmt} {ts : List Turn}

theorem step_of_read_some (h : hostNext s (.read off n name) rest ts) {v : Word} (hv : memRead off n s = some v) :
    step s = .next { s with turns := ts, program := rest, names := bindName name v s.names } := by
  rw [step_of_hostNext h, hostStmt, memRead_congr_host, hv]

theorem step_of_read_none (h : hostNext s (.read off n name) rest ts) (hv : memRead off n s = none) :
    step s = .next (raiseBusError off { s with turns := ts, program := rest }) := by
  rw [step_of_hostNext h, hostStmt, memRead_congr_host, hv]

end

/-- `STATUS` as a number: `ILL`, `LAST` and `BUSY` at their places (20_memory.md R45). -/
theorem statusWord_eq_ofNat (s : State) :
    statusWord s = BitVec.ofNat 32 ((if s.ill then 8 else 0) + 2 * (completionBits s.last).toNat +
      (if s.seq = .idle then 0 else 1)) := by
  rw [statusWord, busy_eq_decide]
  by_cases hs : s.seq = .idle <;> cases s.ill <;> cases s.last <;> simp [hs, completionBits]

/-- Settles O10: the bus errors are the accesses that `memRead` gives no value, and any other read binds its value. -/
theorem busRead : Obligations.BusRead := by
  intro s off n name rest ts h
  by_cases hbad : n ≠ 4 ∨ (Config.base + off.toNat) % 4 ≠ 0 ∨ off = 0x0#4
  · refine ⟨_, step_of_read_none h ((memRead_eq off n s).trans (if_pos hbad)), ?_⟩
    rw [if_pos hbad]
    rfl
  · refine ⟨_, step_of_read_some h ((memRead_eq off n s).trans (if_neg hbad)), ?_⟩
    rw [if_neg hbad]
    refine ⟨rfl, fun m hm => by simp [lookup_bindName, hm], ?_⟩
    rw [lookup_bindName, if_pos rfl, statusWord_eq_ofNat]
    cases s.last <;> rfl

/-- Settles O11: the four outcomes of a write, by offset, width and phase. -/
theorem busWrite : Obligations.BusWrite := by
  intro s off n v rest ts h
  rw [step_of_hostNext h]
  exact congrArg _ (memWrite_eq off n v _)

/-- Settles O13: the write of `CMD` in the phase that accepts it; `BUSY` reads 1 as `SEQ` is then `EXEC`. -/
theorem commandAcceptance : Obligations.CommandAcceptance := by
  intro s v rest ts h hs
  exact ⟨_, step_of_write_cmd_idle h hs, statusWord_getLsbD _ 0, rfl⟩

/-! ### Reads repeat (R46) -/

theorem memRead_of_readable {off : Offset} (h : off = 0x4#4 ∨ off = 0x8#4 ∨ off = 0xC#4) (s : State) :
    ∃ v, memRead off 4 s = some v := by
  obtain rfl | rfl | rfl := h <;> exact ⟨_, rfl⟩

theorem run_succ_of_step {s t : State} (h : step s = .next t) (n : Nat) :
    Host.Core.run core (n + 1) s = Host.Core.run core n t := by
  simp only [Host.Core.run, show core.step s = .next t from h]

/-- Settles O15: the first read leaves the state that the second one reads, but for the host's own position and names. -/
theorem readsAreIdempotent : Obligations.ReadsAreIdempotent := by
  intro s off a b rest ts h hab hoff
  obtain ⟨v, hv⟩ := memRead_of_readable hoff s
  have hfirst := step_of_read_some h hv
  obtain ⟨-, hr, hheld, -⟩ := h
  have hsecond := step_of_read_some (s := { s with
    turns := .host :: ts, program := .read off 4 b :: rest, names := bindName a v s.names })
    ⟨rfl, hr, hheld, rfl⟩ hv
  refine ⟨{ s with turns := ts, program := rest, names := bindName b v (bindName a v s.names) }, ?_, ?_, ?_, rfl⟩
  · rw [run_succ_of_step hfirst, run_succ_of_step hsecond]
    rfl
  all_goals simp [lookup_bindName, hab]

/-! ### Byte order (R43) -/

theorem wordBytes_getElem? (w : Word) {k : Nat} (hk : k < 4) : (wordBytes w)[k]? = some (w.extractLsb' (8 * k) 8) := by
  interval_cases k <;> rfl

/-- Byte `k` of the register at `4 * i` is byte `k` of what a read there gives. -/
theorem windowByte_register (s : State) {i k : Nat} (hi : i < 4) (hk : k < 4) :
    windowByte (BitVec.ofNat 4 (4 * i + k)) s =
      (memRead (BitVec.ofNat 4 (4 * i)) 4 s).map fun w => w.extractLsb' (8 * k) 8 := by
  have hlt : 4 * i + k < 2 ^ 4 := by omega
  unfold windowByte
  rw [BitVec.toNat_ofNat, Nat.mod_eq_of_lt hlt, show (4 * i + k) / 4 = i by omega, show (4 * i + k) % 4 = k by omega]
  cases memRead (BitVec.ofNat 4 (4 * i)) 4 s with
  | none => rfl
  | some w => exact wordBytes_getElem? w hk

/-- Settles O17: the bytes of the four registers, `CMD` having no value to read. -/
theorem littleEndianWindow : Obligations.LittleEndianWindow := by
  intro s k hk
  have hbyte {i : Nat} (hi : i < 4) := windowByte_register s hi hk
  refine ⟨?_, hbyte (i := 1) (by decide), hbyte (i := 2) (by decide), hbyte (i := 3) (by decide)⟩
  rw [← Nat.zero_add k]
  exact hbyte (i := 0) (by decide)

/-! ### Bus errors (R48, R149) -/

theorem hostStmt_faults (st : HostStmt) (s : State) :
    (hostStmt st s).faults = s.faults ∨ ∃ off, hostStmt st s = raiseBusError off s := by
  obtain ⟨_, -, h⟩ | ⟨_, -, h⟩ | ⟨_, -, h⟩ | h | ⟨_, h⟩ | ⟨-, h⟩ := hostStmt_cases st s
  · exact .inl (by simp [h])
  · exact .inl (by simp [h])
  · exact .inl (by simp [h])
  · exact .inr h
  · exact .inl (by simp [h])
  · exact .inl (by simp [h])

/-- Of the host's steps only a statement that is a bus error adds to the run fault record. -/
theorem hostStep_faults {s t : State} (h : hostStep s = .next t) :
    t.faults = s.faults ∨ ∃ off, t = raiseBusError off { s with program := s.program.tail } := by
  obtain ⟨-, -, rfl⟩ | ⟨-, _, -, ⟨-, rfl⟩ | ⟨-, rfl⟩⟩ | ⟨-, -, st, rest, hprog, rfl⟩ := hostStep_next h
  · exact .inl rfl
  · exact .inl rfl
  · exact .inl rfl
  · rw [hprog]
    exact hostStmt_faults st { s with program := rest }

/-- The engine adds to the run fault record only an illegal command (60_exceptions.md R119). -/
theorem engineStep_faults {s t : State} (h : engineStep s = .next t) :
    t.faults = s.faults ∨ t.faults = s.faults ++ [.illegalCommand s.cmdl] := by
  obtain ⟨-, rfl⟩ | ⟨-, _, -, h⟩ | ⟨-, _, -, rfl⟩ | h := engineStep_boot_or_exec_or_frame h
  · exact .inl rfl
  · exact .inl (by rw [exec_frame h])
  · exact .inr rfl
  · exact .inl (by rw [h])

theorem final_eq_false_of_faults {s : State} (h : s.faults ≠ []) : s.final = false := by
  simp [State.final, State.faulted, h]

/-- Settles O12: outside reset a bus error is entered by a host statement and by nothing else. -/
theorem busErrorChangesNothing : Obligations.BusErrorChangesNothing := by
  intro s s' a h hr hfaults
  refine ⟨?_, final_eq_false_of_faults (by simp [hfaults])⟩
  have hgrown : s'.faults ≠ s.faults := by simp [hfaults]
  obtain ⟨ts, k, h | h | rfl | rfl | rfl⟩ := step_next h
  · obtain hsame | ⟨off, rfl⟩ := hostStep_faults h
    · exact absurd hsame hgrown
    · rfl
  · obtain hsame | hillegal := engineStep_faults h
    · exact absurd hsame hgrown
    · simp [hillegal] at hfaults
  · exact absurd (by rw [tickStep_frame]) hgrown
  · cases hr
  · exact absurd rfl hgrown

/-! ### The held `CMD` write (R51, R133) -/

/-- What a step can do to a held write: leave it and its host as they are, complete it in `IDLE`, or end it by an
asserted reset with a bus error. -/
theorem step_of_held {s t : State} {v : Word} (hheld : s.held = some v) (h : step s = .next t) :
    (t.held = some v ∧ t.program = s.program ∧ t.names = s.names ∧ t.arg = s.arg) ∨
    (s.seq = .idle ∧ t = accept v { s with held := none, turns := t.turns, turnNo := t.turnNo }) ∨
    (t.held = none ∧ t.inReset = true ∧ t.faults = s.faults ++ [.busError Config.base]) := by
  obtain ⟨ts, k, h | h | rfl | rfl | rfl⟩ := step_next h
  · obtain ⟨hnone, -⟩ | ⟨-, w, hw, ⟨hs, rfl⟩ | ⟨-, rfl⟩⟩ | ⟨-, hnone, -⟩ := hostStep_next h
    · cases hheld.symm.trans hnone
    · cases hheld.symm.trans hw
      exact .inr (.inl ⟨hs, rfl⟩)
    · exact .inl ⟨hheld, rfl, rfl, rfl⟩
    · cases hheld.symm.trans hnone
  · rw [engineStep_frame h]
    exact .inl ⟨hheld, rfl, rfl, rfl⟩
  · rw [tickStep_frame]
    exact .inl ⟨hheld, rfl, rfl, rfl⟩
  · rw [assertReset_eq]
    exact .inr (.inr ⟨rfl, rfl, by simp [hheld, busAddr]⟩)
  · exact .inl ⟨hheld, rfl, rfl, rfl⟩

/-- Settles O14: the write outside `IDLE`, what any step does to a held write, and the host's turn with one held. -/
theorem heldWriteWaitsForIdle : Obligations.HeldWriteWaitsForIdle := by
  refine ⟨fun s v rest ts => step_of_write_cmd_busy, fun s t v => step_of_held, fun s v ts hheld hr hturns => ?_⟩
  rw [step_of_turns hturns]
  exact hostStep_of_held hheld hr

end Sys2Proof.Machine
end

section
/-! The decoder and the encoder (spec/30_encoding.md R63 to R71): decoding and encoding undo each other, so the legal
words are the encodings of the commands; which numbers they are, and how many. -/

namespace Sys2Proof

/-! ### The encoding of a command as a number (R66) -/

theorem pinForm_toNat (p : Pin) (low : Byte) : (0x0000#16 ++ p ++ low).toNat = 256 * p.toNat + low.toNat := by
  rw [BitVec.toNat_append, BitVec.toNat_append, ← Nat.shiftLeft_add_eq_or_of_lt low.isLt, Nat.shiftLeft_eq]
  simp [Nat.mul_comm]

theorem encode_initp_toNat (p : Pin) : (encode (.initp p)).toNat = 256 * p.toNat + 2 := pinForm_toNat p 0x02#8

theorem encode_initpr_toNat (p : Pin) : (encode (.initpr p)).toNat = 256 * p.toNat + 3 := pinForm_toNat p 0x03#8

/-- The pin form with opcode `k`: its fields, read off the number. -/
theorem fields_of_pinForm {w : Word} {p : Pin} {k : Nat} (hk : k < 16) (h : w.toNat = 256 * p.toNat + k) :
    w.toNat / 65536 = 0 ∧ w.toNat / 16 % 16 = 0 ∧ w.toNat % 16 = k ∧ pinField w = p := by
  have := p.isLt
  refine ⟨by omega, by omega, by omega, BitVec.eq_of_toNat_eq ?_⟩
  rw [pinField_toNat]
  omega

/-- A word with zeros in both reserved fields is its pin and its opcode. -/
theorem toNat_eq_pinField_add_opcode {w : Word} (h1 : w.toNat / 65536 = 0) (h0 : w.toNat / 16 % 16 = 0) :
    w.toNat = 256 * (pinField w).toNat + w.toNat % 16 := by
  rw [pinField_toNat]
  omega

/-! ### Decode and encode undo each other (R66, R67) -/

theorem decode_encode (i : Instr) : decode (encode i) = .ok i := by
  cases i with
  | initp p =>
    obtain ⟨h1, h0, hop, hpin⟩ := fields_of_pinForm (by decide) (encode_initp_toNat p)
    exact (decode_ok_iff _ _).2 ⟨h1, h0, .inl ⟨hop, by rw [hpin]⟩⟩
  | initpr p =>
    obtain ⟨h1, h0, hop, hpin⟩ := fields_of_pinForm (by decide) (encode_initpr_toNat p)
    exact (decode_ok_iff _ _).2 ⟨h1, h0, .inr (.inl ⟨hop, by rw [hpin]⟩)⟩
  | _ => rfl

theorem encode_of_decode {w : Word} {i : Instr} (h : decode w = .ok i) : encode i = w := by
  obtain ⟨h1, h0, ⟨hop, rfl⟩ | ⟨hop, rfl⟩ | ⟨hpin, h⟩⟩ := (decode_ok_iff w i).1 h
  · exact BitVec.eq_of_toNat_eq (by rw [encode_initp_toNat, ← hop, ← toNat_eq_pinField_add_opcode h1 h0])
  · exact BitVec.eq_of_toNat_eq (by rw [encode_initpr_toNat, ← hop, ← toNat_eq_pinField_add_opcode h1 h0])
  · have hw : w = BitVec.ofNat 32 (w.toNat % 16) := by
      rw [show w.toNat % 16 = w.toNat by omega, BitVec.ofNat_toNat, BitVec.setWidth_eq]
    obtain ⟨hop, rfl⟩ | ⟨hop, rfl⟩ | ⟨hop, rfl⟩ | ⟨hop, rfl⟩ | ⟨hop, rfl⟩ | ⟨hop, rfl⟩ | ⟨hop, rfl⟩ := h
    all_goals rw [hw, hop]; rfl

theorem decode_ok_iff_encode (w : Word) (i : Instr) : decode w = .ok i ↔ encode i = w :=
  ⟨encode_of_decode, fun h => h ▸ decode_encode i⟩

theorem encode_injective : Function.Injective encode := fun i j h =>
  Except.ok.inj ((decode_encode i).symm.trans (h ▸ decode_encode j))

theorem decodeBytes_wordBytes {w : Word} {i : Instr} (h : decode w = .ok i) (rest : List Byte) :
    decodeBytes (wordBytes w ++ rest) = .ok (i, rest) := by
  simp [decodeBytes, wordBytes, wordOfBytes_of_bytes, h]

/-- Settles O1: the decoder reads the fields that the encoder wrote, and a legal word holds nothing else. -/
theorem decodeAndEncodeAgree : Obligations.DecodeAndEncodeAgree :=
  ⟨fun i => ⟨decode_encode i, decodeBytes_wordBytes (decode_encode i)⟩, fun _ _ => encode_of_decode⟩

/-! ### The legal words (R69, R71) -/

/-- R69's complement: reserved bits 0, an opcode of the map, and no pin but with opcodes 2 and 3. -/
theorem legal_iff_fields (w : Word) :
    (∃ i, decode w = .ok i) ↔
      w.toNat / 65536 = 0 ∧ w.toNat / 16 % 16 = 0 ∧
      (w.toNat % 16 = 2 ∨ w.toNat % 16 = 3 ∨ (w.toNat / 256 % 256 = 0 ∧ 1 ≤ w.toNat % 16 ∧ w.toNat % 16 ≤ 9)) := by
  simp only [decode_ok_iff, exists_and_left, exists_or, exists_eq, and_true]
  omega

theorem illegal_iff_not_legal (w : Word) : (∃ e, decode w = .error e) ↔ ¬ ∃ i, decode w = .ok i := by
  cases decode w <;> simp

theorem legal_iff_toNat (w : Word) :
    (∃ i, decode w = .ok i) ↔
      (w.toNat ∈ [1, 4, 5, 6, 7, 8, 9] ∨ ∃ p : Pin, w.toNat = 256 * p.toNat + 2 ∨ w.toNat = 256 * p.toNat + 3) := by
  rw [legal_iff_fields]
  simp only [List.mem_cons, List.not_mem_nil, or_false]
  constructor
  · rintro ⟨h1, h0, hop⟩
    have hw := toNat_eq_pinField_add_opcode h1 h0
    by_cases hform : w.toNat % 16 = 2 ∨ w.toNat % 16 = 3
    · exact .inr ⟨pinField w, by omega⟩
    · exact .inl (by omega)
  · rintro (h | ⟨p, h | h⟩)
    · omega
    · obtain ⟨h1, h0, hop, -⟩ := fields_of_pinForm (by decide) h
      exact ⟨h1, h0, .inl hop⟩
    · obtain ⟨h1, h0, hop, -⟩ := fields_of_pinForm (by decide) h
      exact ⟨h1, h0, .inr (.inl hop)⟩

def allPins : List Pin := (List.finRange 256).map BitVec.ofFin

theorem mem_allPins (p : Pin) : p ∈ allPins := List.mem_map.2 ⟨p.toFin, List.mem_finRange _, rfl⟩

theorem nodup_allPins : allPins.Nodup :=
  (List.nodup_finRange 256).map fun _ _ h => congrArg BitVec.toFin h

/-- The seven commands without a pin, and the two forms with each of the 256 pins. -/
def allCommands : List Instr :=
  [.init, .conv, .setres, .setdly, .getdly, .getres, .setrescfg] ++ (allPins.map .initp ++ allPins.map .initpr)

theorem mem_allCommands (i : Instr) : i ∈ allCommands := by
  cases i <;> simp [allCommands, mem_allPins]

theorem nodup_allCommands : allCommands.Nodup := by
  have hinitp : (allPins.map Instr.initp).Nodup := nodup_allPins.map fun _ _ h => Instr.initp.inj h
  have hinitpr : (allPins.map Instr.initpr).Nodup := nodup_allPins.map fun _ _ h => Instr.initpr.inj h
  refine .append (by decide) (.append hinitp hinitpr ?_) ?_ <;> simp [List.Disjoint]

theorem length_allCommands : allCommands.length = 519 := by simp [allCommands, allPins]

/-- The encodings of the commands are the legal words, each once. -/
theorem mem_encode_allCommands (w : Word) : w ∈ allCommands.map encode ↔ ∃ i, decode w = .ok i := by
  simp [decode_ok_iff_encode, mem_allCommands]

/-- Settles O3: the words counted are the encodings of all commands, no two of them equal. -/
theorem exactlyFiveHundredNineteenLegalWords : Obligations.ExactlyFiveHundredNineteenLegalWords :=
  ⟨⟨allCommands.map encode, nodup_allCommands.map encode_injective, by simp [length_allCommands],
    mem_encode_allCommands⟩, legal_iff_toNat⟩

/-- Settles O4: each word by computation. -/
theorem tableWordsDecode : Obligations.TableWordsDecode :=
  ⟨rfl, rfl, rfl, rfl, rfl, rfl, rfl, rfl, rfl, rfl, rfl, rfl⟩

end Sys2Proof
end

section
/-! The engine step in `EXEC` (spec/30_encoding.md R67, R69): the decoded command's meaning, or the effects of an illegal
word. -/

namespace Sys2Proof.Machine

theorem engineStep_legal {s : State} {i : Instr} (hr : s.inReset = false) (hs : s.seq = .exec)
    (hi : decode s.cmdl = .ok i) : engineStep s = exec i s := by
  simp [engineStep, hr, hs, executeCommand, hi]

theorem step_of_exec_legal {s : State} {ts : List Turn} {i : Instr} (hnext : engineNext s ts) (hs : s.seq = .exec)
    (hi : decode s.cmdl = .ok i) : step s = exec i { s with turns := ts } := by
  obtain ⟨hturns, hr⟩ := hnext
  rw [step_of_turns hturns]
  exact engineStep_legal hr hs hi

theorem step_of_exec_illegal {s : State} {ts : List Turn} {e : Illegal} (hnext : engineNext s ts) (hs : s.seq = .exec)
    (he : decode s.cmdl = .error e) : step s = .next (raiseIllegal s.cmdl { s with turns := ts }) := by
  obtain ⟨hturns, hr⟩ := hnext
  rw [step_of_turns hturns]
  exact engineStep_illegal hr hs he

/-- Settles O2: the illegal words are those outside the fields of the legal ones, and their step raises the error. -/
theorem illegalWordsAndTheirEffects : Obligations.IllegalWordsAndTheirEffects := by
  refine ⟨fun w => ?_, fun s ts e => step_of_exec_illegal⟩
  rw [illegal_iff_not_legal, legal_iff_fields]
  omega

theorem withFetchWord_eq_placeCommand (s : State) (w : Word) : s.withFetchWord 32 w.toNat = placeCommand w s := by
  rw [State.withFetchWord, Nat.mod_eq_of_lt w.isLt, BitVec.ofNat_toNat, BitVec.setWidth_eq]

/-- Settles O5: a placed word is latched in `EXEC` with the engine next, so its step is that of the decoded command. -/
theorem engineStepRunsDecodedCommand : Obligations.EngineStepRunsDecodedCommand := by
  refine ⟨fun s ts i => step_of_exec_legal, fun s i => ?_⟩
  rw [withFetchWord_eq_placeCommand]
  exact step_of_exec_legal (s := placeCommand (encode i) s) ⟨rfl, rfl⟩ rfl (decode_encode i)

end Sys2Proof.Machine
end

section
/-! Runs of the expansions (spec/30_encoding.md R74): what each statement of an expansion does to a machine whose host
can take it at once, and two programs made of them. -/

namespace Sys2Proof.Machine

/-! ### Runs -/

/-- A run that goes on takes a step that goes on. -/
theorem run_succ_next {n : Nat} {s t : State} (h : Host.Core.run core (n + 1) s = .next t) :
    ∃ u, step s = .next u ∧ Host.Core.run core n u = .next t := by
  simp only [Host.Core.run] at h
  split at h
  · rename_i u hstep
    exact ⟨u, hstep, h⟩
  all_goals cases h

theorem run_append {a b : Nat} {s t u : State} (h : Host.Core.run core a s = .next t)
    (h' : Host.Core.run core b t = .next u) : Host.Core.run core (a + b) s = .next u := by
  induction a generalizing s with
  | zero =>
    cases h
    rwa [Nat.zero_add]
  | succ a ih =>
    obtain ⟨r, hstep, hrest⟩ := run_succ_next h
    rw [Nat.add_right_comm, run_succ_of_step hstep, ih hrest]

theorem run_one {s t : State} (h : step s = .next t) : Host.Core.run core 1 s = .next t :=
  run_succ_of_step h 0

/-- The engine is idle outside reset, nothing is held, the host has `p` left, and the turns `ts` come next. -/
structure ReadyFor (s : State) (p : List HostStmt) (ts : List Turn) : Prop where
  idle : s.seq = .idle
  running : s.inReset = false
  notHeld : s.held = none
  program : s.program = p
  turns : s.turns = ts

/-! ### The statements of an expansion -/

section
variable {s : State} {rest : List HostStmt} {ts : List Turn}

theorem ReadyFor.hostNext {st : HostStmt} (h : ReadyFor s (st :: rest) (.host :: ts)) : hostNext s st rest ts :=
  ⟨h.turns, h.running, h.notHeld, h.program⟩

theorem run_wrArg {v : Nat} (h : ReadyFor s (wrArg v :: rest) (.host :: ts)) :
    Host.Core.run core 1 s = .next { s with arg := BitVec.ofNat 32 v, program := rest, turns := ts } :=
  run_one (step_of_hostNext h.hostNext)

theorem pollStatus_idle (hs : s.seq = .idle) : pollStatus s = s :=
  if_neg (by rw [statusWord_getLsbD, if_pos rfl, busy_eq_decide]; simp [hs])

theorem run_wait (h : ReadyFor s (.wait :: rest) (.host :: ts)) :
    Host.Core.run core 1 s = .next { s with program := rest, turns := ts } :=
  run_one ((step_of_hostNext h.hostNext).trans (congrArg _ (pollStatus_idle h.idle)))

theorem run_rdRsp {name : Name} (h : ReadyFor s (rdRsp name :: rest) (.host :: ts)) :
    Host.Core.run core 1 s =
      .next { s with names := bindName name s.rsp s.names, program := rest, turns := ts } :=
  run_one (step_of_read_some (v := s.rsp) h.hostNext rfl)

/-- A command that completes in one step, from the write of its word to the poll that sees it done. -/
theorem run_command {i : Instr} {t : State}
    (h : ReadyFor s (wrCmd i :: .wait :: rest) (.host :: .engine :: .host :: ts))
    (hexec : exec i (accept (encode i) { s with program := .wait :: rest, turns := .host :: ts }) = .next t)
    (hidle : t.seq = .idle) : Host.Core.run core 3 s = .next { t with program := rest, turns := ts } := by
  have haccept := step_of_write_cmd_idle h.hostNext h.idle
  have hengine := step_of_exec_legal
    (s := accept (encode i) { s with program := .wait :: rest, turns := .engine :: .host :: ts })
    ⟨rfl, h.running⟩ rfl (decode_encode i)
  have hready : ReadyFor t (.wait :: rest) (.host :: ts) := by
    rw [exec_frame hexec]
    exact ⟨hidle, h.running, h.notHeld, rfl, rfl⟩
  exact run_append (run_one haccept) (run_append (run_one (hengine.trans hexec)) (run_wait hready))

end

/-! ### The expansions of the two programs -/

/-- SETRES: the operand is taken if it is recognized, and the return code says whether it was (40_configuration.md
R85). -/
theorem exec_setres_eq (s : State) :
    exec .setres s = .next { s with
      res := if validRes s.opl then resOf s.opl else s.res, rsp := if validRes s.opl then 0#32 else 1#32,
      last := if validRes s.opl then .ok else .errRes, seq := .idle } := by
  change execSetres s = _
  unfold execSetres
  by_cases h : validRes s.opl = true
  · simp [valueOperand, h, complete, Config.success]
  · simp [valueOperand, h, complete, rejectResolution, Config.errRes]

section
variable {s : State} {rest : List HostStmt} {ts : List Turn}

theorem run_setdly {d : Nat} (h : ReadyFor s (expand (.setdly d) ++ rest) (.host :: .host :: .engine :: .host :: ts)) :
    Host.Core.run core 4 s = .next { s with
      arg := BitVec.ofNat 32 d, opl := BitVec.ofNat 32 d, cmdl := encode .setdly, delay := BitVec.ofNat 32 d,
      rsp := 0#32, last := .ok, seq := .idle, program := rest, turns := ts } :=
  (run_append (run_wrArg h) (run_command (i := .setdly) ⟨h.idle, h.running, h.notHeld, rfl, rfl⟩ rfl rfl) :)

theorem run_getdly {name : Name}
    (h : ReadyFor s (expand (.getdly name) ++ rest) (.host :: .engine :: .host :: .host :: ts)) :
    Host.Core.run core 4 s = .next { s with
      opl := s.arg, cmdl := encode .getdly, rsp := s.delay, last := .ok, seq := .idle,
      names := bindName name s.delay s.names, program := rest, turns := ts } :=
  (run_append (run_command h rfl rfl) (run_rdRsp (name := name) ⟨rfl, h.running, h.notHeld, rfl, rfl⟩) :)

theorem run_getres {name : Name}
    (h : ReadyFor s (expand (.getres name) ++ rest) (.host :: .engine :: .host :: .host :: ts)) :
    Host.Core.run core 4 s = .next { s with
      opl := s.arg, cmdl := encode .getres, rsp := (resId s.res).setWidth 32, last := .ok, seq := .idle,
      names := bindName name ((resId s.res).setWidth 32) s.names, program := rest, turns := ts } :=
  (run_append (run_command h rfl rfl) (run_rdRsp (name := name) ⟨rfl, h.running, h.notHeld, rfl, rfl⟩) :)

theorem run_setres {v : Nat}
    (h : ReadyFor s (expand (.setres v) ++ rest) (.host :: .host :: .engine :: .host :: .host :: ts)) :
    Host.Core.run core 5 s = .next { s with
      arg := BitVec.ofNat 32 v, opl := BitVec.ofNat 32 v, cmdl := encode .setres,
      res := if validRes (BitVec.ofNat 32 v) then resOf (BitVec.ofNat 32 v) else s.res,
      rsp := if validRes (BitVec.ofNat 32 v) then 0#32 else 1#32,
      last := if validRes (BitVec.ofNat 32 v) then .ok else .errRes, seq := .idle,
      names := bindName returnCode (if validRes (BitVec.ofNat 32 v) then 0#32 else 1#32) s.names,
      program := rest, turns := ts } :=
  (run_append (run_wrArg h) (run_append
    (run_command (i := .setres) ⟨h.idle, h.running, h.notHeld, rfl, rfl⟩ (exec_setres_eq _) rfl)
    (run_rdRsp (name := returnCode) ⟨rfl, h.running, h.notHeld, rfl, rfl⟩)) :)

end

/-! ### The two programs -/

/-- Settles O56: SETDLY leaves its operand in `DELAY`, and GETDLY responds with it. -/
theorem setdlyThenGetdly : Obligations.SetdlyThenGetdly := by
  intro s d name rest ts hd hs hr hheld hprog hturns
  rw [List.append_assoc] at hprog
  have hset := run_setdly ⟨hs, hr, hheld, hprog, hturns⟩
  refine ⟨_, run_append hset (run_getdly ⟨rfl, hr, hheld, rfl, rfl⟩), ?_, rfl, rfl, rfl, rfl, rfl⟩
  rw [lookup_bindName, if_pos rfl]

theorem validRes_ofNat {v : Nat} (hv : v < 2 ^ 32) : validRes (BitVec.ofNat 32 v) = decide (v ≤ 1) := by
  rw [Bool.eq_iff_iff, validRes_iff, decide_eq_true_iff, ← BitVec.toNat_inj, ← BitVec.toNat_inj, BitVec.toNat_ofNat,
    Nat.mod_eq_of_lt hv]
  change v = 0 ∨ v = 1 ↔ v ≤ 1
  omega

theorem resId_resOf_ofNat {v : Nat} (hv : v ≤ 1) :
    (resId (resOf (BitVec.ofNat 32 v))).setWidth 32 = BitVec.ofNat 32 v := by
  interval_cases v <;> rfl

/-- Settles O57: SETRES takes the operand or leaves `RES`, GETRES responds with `RES`, and neither touches `BRES`. -/
theorem setresThenGetres : Obligations.SetresThenGetres := by
  intro s v name rest ts hv hs hr hheld hprog hturns
  rw [List.append_assoc] at hprog
  have hset := run_setres ⟨hs, hr, hheld, hprog, hturns⟩
  refine ⟨_, run_append hset (run_getres ⟨rfl, hr, hheld, rfl, rfl⟩), rfl, rfl, rfl, fun hname => ?_, ?_⟩
  · simp [lookup_bindName, hname.symm, validRes_ofNat hv]
  · rw [lookup_bindName, if_pos rfl, validRes_ofNat hv]
    by_cases h1 : v ≤ 1
    · simp [h1, resId_resOf_ofNat h1]
    · rw [if_neg h1, decide_eq_false h1]
      cases s.res <;> rfl

end Sys2Proof.Machine
end

section
/-! Lines, transactions and disassemblies written out in the spec, and the transactions of a run (spec/30_encoding.md
R73 to R76). -/

namespace Sys2Proof.Machine

/-- Settles O58: each by computation. -/
theorem assembledAndDisassembled : Obligations.AssembledAndDisassembled := by
  unfold Obligations.AssembledAndDisassembled
  decide

/-- Settles O59, by induction on the number of steps: each completes at most one transaction of what is outstanding. -/
theorem transactionsAreTheAssembledForm : Obligations.TransactionsAreTheAssembledForm := by
  intro n
  induction n with
  | zero =>
    rintro s _ ⟨⟩ hdone
    rw [hdone]
    rfl
  | succ n ih =>
    intro s t hrun hdone
    obtain ⟨u, hstep, hrest⟩ := run_succ_next hrun
    rw [transactionsOf_succ n hstep]
    exact step_outstanding hstep _ (ih u t hrest hdone)

end Sys2Proof.Machine
end

section
/-! The configuration commands (spec/40_configuration.md R82 to R90): the whole next state of each, and the events that
a step can send (R81, spec/20_memory.md R55). -/

namespace Sys2Proof.Machine

/-! ### The shared operations -/

/-- A constructor writes the configuration and sends `PinCfg` before the bundle (40_configuration.md R82 to R84). -/
theorem construct_eq (p : Pin) (r : Resolution) (d : Word) (s : State) :
    construct p r d s = { s with
      pin := p, res := r, delay := d, bres := r, hist := s.hist ++ .pinCfg p :: bundleEvents r } := by
  rw [← bundle_eq, List.append_cons]
  rfl

theorem applyBundle_eq (r : Resolution) (s : State) :
    applyBundle r s = { s with bres := r, hist := s.hist ++ bundleEvents r } := by
  rw [← bundle_eq]
  rfl

/-! ### The operand of a resolution (spec/00_scope.md R15) -/

/-- The operand that names a resolution, which is also GETRES's response for it (00_scope.md R15,
40_configuration.md R89). -/
def resolutionWord : Resolution → Word
  | .eightBit => 0#32
  | .tenBit => 1#32

theorem resId_setWidth (r : Resolution) : (resId r).setWidth 32 = resolutionWord r := by cases r <;> rfl

theorem validRes_of_eq_resolutionWord {v : Word} {r : Resolution} (h : v = resolutionWord r) : validRes v = true := by
  subst h
  cases r <;> rfl

theorem resOf_resolutionWord (r : Resolution) : resOf (resolutionWord r) = r := by cases r <;> rfl

theorem validRes_ne_true {v : Word} (h0 : v ≠ 0#32) (h1 : v ≠ 1#32) : ¬ validRes v = true := by
  rw [validRes_iff]
  exact not_or.2 ⟨h0, h1⟩

/-- The three commands with a resolution operand reject an unrecognized one (60_exceptions.md R118). -/
theorem exec_unrecognized {s : State} (h0 : s.opl ≠ 0#32) (h1 : s.opl ≠ 1#32) (p : Pin) :
    ∀ i ∈ [Instr.initpr p, .setres, .setrescfg],
      exec i s = .next { s with rsp := 1#32, last := .errRes, seq := .idle } := by
  have hv := validRes_ne_true h0 h1
  simp only [List.forall_mem_cons]
  exact ⟨if_neg hv, if_neg hv, if_neg hv, by simp⟩

/-! ### The commands that construct (R82 to R84) -/

theorem exec_initp_eq (p : Pin) (s : State) :
    exec (.initp p) s = .next { s with
      pin := p, res := .tenBit, delay := 60#32, bres := .tenBit,
      hist := s.hist ++ .pinCfg p :: bundleEvents .tenBit, rsp := 0#32, last := .ok, seq := .idle } := by
  have hconstruct : exec (.initp p) s = .next (complete .ok 0#32 (construct p .tenBit 60#32 s)) := rfl
  rw [hconstruct, construct_eq]
  rfl

/-- INITP of the default pin is INIT (40_configuration.md R83, 00_scope.md R7). -/
theorem exec_initp_defaultPin (s : State) : exec (.initp Config.defaultPin) s = exec .init s := rfl

theorem exec_initpr_recognized {s : State} {r : Resolution} (h : s.opl = resolutionWord r) (p : Pin) :
    exec (.initpr p) s = .next { s with
      pin := p, res := r, delay := 69#32, bres := r, hist := s.hist ++ .pinCfg p :: bundleEvents r,
      rsp := 0#32, last := .ok, seq := .idle } := by
  have htaken : exec (.initpr p) s = .next (complete .ok 0#32 (construct p (resOf s.opl) 69#32 s)) :=
    if_pos (validRes_of_eq_resolutionWord h)
  rw [htaken, construct_eq, h, resOf_resolutionWord]
  rfl

/-- Settles O18: INIT is INITP of the default pin. -/
theorem initEffect : Obligations.InitEffect :=
  ⟨decode_encode .init, fun s => (exec_initp_defaultPin s).symm.trans (exec_initp_eq Config.defaultPin s)⟩

/-- Settles O19: the word is the command's encoding, and its step constructs with the fixed resolution and delay. -/
theorem initpEffect : Obligations.InitpEffect :=
  ⟨fun p => decode_encode (.initp p), fun s p => exec_initp_eq p s, exec_initp_defaultPin⟩

/-- Settles O20: an operand that names a resolution constructs with it, and any other is rejected. -/
theorem initprEffect : Obligations.InitprEffect :=
  ⟨fun p => decode_encode (.initpr p), fun _ p =>
    ⟨fun _ h => exec_initpr_recognized h p, fun h0 h1 => exec_unrecognized h0 h1 p _ (by simp)⟩⟩

/-! ### The commands that set or read one register, and SETRESCFG (R85 to R90) -/

theorem exec_setres_recognized {s : State} {r : Resolution} (h : s.opl = resolutionWord r) :
    exec .setres s = .next { s with res := r, rsp := 0#32, last := .ok, seq := .idle } := by
  rw [exec_setres_eq, validRes_of_eq_resolutionWord h, h, resOf_resolutionWord]
  rfl

theorem exec_setrescfg_recognized {s : State} {r : Resolution} (h : s.opl = resolutionWord r) :
    exec .setrescfg s = .next { s with
      res := r, bres := r, hist := s.hist ++ bundleEvents r, rsp := 0#32, last := .ok, seq := .idle } := by
  have htaken : exec .setrescfg s =
      .next (complete .ok 0#32 (applyBundle (resOf s.opl) { s with res := resOf s.opl })) :=
    if_pos (validRes_of_eq_resolutionWord h)
  rw [htaken, applyBundle_eq, h, resOf_resolutionWord]
  rfl

theorem exec_getres_eq (s : State) :
    exec .getres s = .next { s with rsp := resolutionWord s.res, last := .ok, seq := .idle } := by
  rw [← resId_setWidth]
  rfl

/-- Settles O21: an operand that names a resolution is taken into `RES` alone, and any other is rejected. -/
theorem setresEffect : Obligations.SetresEffect :=
  ⟨decode_encode .setres, fun _ =>
    ⟨exec_setres_recognized (r := .eightBit), exec_setres_recognized (r := .tenBit),
      fun h0 h1 => exec_unrecognized h0 h1 0#8 _ (by simp)⟩⟩

/-- Settles O22: `RES` and `BRES` take the resolution that the operand names, or the operand is rejected. -/
theorem setrescfgEffect : Obligations.SetrescfgEffect :=
  ⟨decode_encode .setrescfg, fun _ =>
    ⟨fun _ h => ⟨_, exec_setrescfg_recognized h, rfl, rfl⟩,
      fun h0 h1 => exec_unrecognized h0 h1 0#8 _ (by simp)⟩⟩

/-- Settles O23: the operand is stored as it is. -/
theorem setdlyEffect : Obligations.SetdlyEffect :=
  ⟨decode_encode .setdly, fun _ => rfl⟩

/-- Settles O24: each accessor completes with the register it reads, and touches no other. -/
theorem accessorsEffect : Obligations.AccessorsEffect :=
  ⟨decode_encode .getdly, decode_encode .getres, fun s => ⟨rfl, exec_getres_eq s⟩⟩

/-! ### The events of a step (R81, R55) -/

/-- A whole bundle was sent, of the resolution that `RES` and `BRES` now hold, with or without the `PinCfg` of `PIN`
before it (40_configuration.md R81). -/
def sendsBundle (s t : State) : Prop :=
  (t.hist = s.hist ++ .pinCfg t.pin :: bundleEvents t.bres ∨ t.hist = s.hist ++ bundleEvents t.bres) ∧ t.res = t.bres

theorem sendsBundle_construct (p : Pin) (r : Resolution) (d : Word) (s : State) :
    sendsBundle s (construct p r d s) := by
  rw [construct_eq]
  exact ⟨.inl rfl, rfl⟩

theorem sendsBundle_applyBundle (r : Resolution) (s : State) :
    sendsBundle s (applyBundle r { s with res := r }) := by
  rw [applyBundle_eq]
  exact ⟨.inr rfl, rfl⟩

/-- The first step of a command sends nothing or a whole bundle: CONV's events come from its later steps. -/
theorem exec_events {i : Instr} {s t : State} (h : exec i s = .next t) : t.hist = s.hist ∨ sendsBundle s t := by
  obtain ⟨-, h'⟩ | ⟨-, h'⟩ | ⟨-, p, r, d, h'⟩ | ⟨-, r, h'⟩ | ⟨-, _, h'⟩ | ⟨-, h'⟩ | ⟨-, _, h'⟩ := exec_cases i s <;>
    cases h'.symm.trans h
  · exact .inl rfl
  · exact .inl rfl
  · exact .inr (sendsBundle_construct p r d s :)
  · exact .inr (sendsBundle_applyBundle r s :)
  all_goals exact .inl rfl

/-- The duty count of a trial is the new accumulator (41_conversion.md R104). -/
theorem trialStep_events {s t : State} (h : trialStep s = .next t) :
    t.hist = s.hist ++ [.duty (t.acc.setWidth 32)] := by
  obtain ⟨hfits, rfl⟩ := trialStep_next h
  rw [BitVec.setWidth_ofNat_of_le_of_lt (by decide) hfits]

theorem engineStep_events {s t : State} (h : engineStep s = .next t) :
    t.hist = s.hist ∨ ((s.seq = .boot ∨ s.seq = .exec) ∧ sendsBundle s t) ∨
    (s.seq = .cTrial ∧ t.hist = s.hist ++ [.duty (t.acc.setWidth 32)]) ∨
    (s.seq = .cSample ∧ ∃ l : Level, t.hist = s.hist ++ [.read s.pin l]) := by
  obtain ⟨-, rfl⟩ | ⟨-, ⟨hs, rfl⟩ | ⟨hs, _, -, h⟩ | ⟨-, _, -, rfl⟩ | ⟨hs, h⟩ | ⟨-, -, rfl⟩ | ⟨hs, h⟩⟩ :=
    engineStep_next h
  · exact .inl rfl
  · exact .inr (.inl ⟨.inl hs, (sendsBundle_construct Config.defaultPin .tenBit 60#32 s :)⟩)
  · exact (exec_events h).imp_right fun hb => .inl ⟨.inr hs, hb⟩
  · exact .inl rfl
  · exact .inr (.inr (.inl ⟨hs, trialStep_events h⟩))
  · exact .inl rfl
  · obtain ⟨l, _, -, -, rfl⟩ := sampleStep_next h
    exact .inr (.inr (.inr ⟨hs, l, rfl⟩))

/-- Settles O42: of the agents only the engine sends events, and an asserted reset keeps the history. -/
theorem eventsOfAStep : Obligations.EventsOfAStep := by
  intro s t h
  obtain ⟨_, _, h⟩ | ⟨_, _, rfl⟩ | h := step_engine_or_reset_or_frame h
  · exact (engineStep_events h :)
  · rw [assertReset_eq]
    exact .inl rfl
  · exact .inl (by rw [h])

end Sys2Proof.Machine
end

section
/-! Every step of every agent keeps the invariant: the bits of `ACC` during a conversion (spec/41_conversion.md R108,
R110), the last events sent (spec/10_state.md R24, R27), and the run fault record behind `ILL`
(spec/70_reset_and_hazards.md R149). -/

namespace Sys2Proof.Machine

/-! ### The parts of the invariant -/

theorem Inv.settle_shape {s : State} (h : Inv s) (hs : s.seq = .cSettle) :
    s.bit.toNat ≤ top s.res ∧ s.acc.toNat < 2 ^ (top s.res + 1) ∧
      s.acc.toNat % 2 ^ (s.bit.toNat + 1) = 2 ^ s.bit.toNat ∧ s.scnt.toNat ≤ s.delay.toNat := by
  simpa only [conversionShape, hs] using h.conversion

/-- The last `PinCfg` was for `PIN` and the last bundle was that of `BRES`. -/
def portsAgree (s : State) : Prop :=
  lastSent pinCfgOf s.hist = some s.pin ∧ lastSent freqOf s.hist = some (freq s.bres) ∧
  lastSent countsOf s.hist = some (counts s.bres)

theorem portsAgree_append {s : State} (h : portsAgree s) {e : Event} (hp : pinCfgOf e = none) (hf : freqOf e = none)
    (hc : countsOf e = none) : portsAgree { s with hist := s.hist ++ [e] } := by
  simpa [portsAgree, hp, hf, hc] using h

theorem portsAgree_construct (p : Pin) (r : Resolution) (d : Word) (s : State) : portsAgree (construct p r d s) := by
  simp only [portsAgree, construct_hist, construct_pin, construct_bres, lastSent_pinCfg_bundle, lastSent_append,
    lastSent_freq_bundle, lastSent_counts_bundle, pinCfgOf, Option.some_or, and_self]

theorem portsAgree_applyBundle {s : State} (h : portsAgree s) (r : Resolution) : portsAgree (applyBundle r s) := by
  obtain ⟨hpin, -, -⟩ := h
  simpa [portsAgree] using hpin

/-- `LAST` may be overwritten by another status and the run fault record may grow. -/
theorem errorShape_of_subset {s t : State} (h : errorShape s) (hlast : t.last = .illegal → s.last = .illegal)
    (hill : t.ill = s.ill) (hfaults : s.faults ⊆ t.faults) : errorShape t := by
  obtain ⟨hflag, hrecord⟩ := h
  refine ⟨fun hl => hill.trans (hflag (hlast hl)), fun hi => ?_⟩
  obtain ⟨w, hw⟩ := hrecord (hill.symm.trans hi)
  exact ⟨w, hfaults hw⟩

/-- Outside `BOOT` and reset the invariant is about the conversion, the ports and the errors. -/
theorem inv_of_running {s : State} (hr : s.inReset = false) (hs : s.seq ≠ .boot) (hconv : conversionShape s)
    (hports : portsAgree s) (herrors : errorShape s) : Inv s where
  conversion := hconv
  boot := fun hboot => absurd hboot hs
  reset := fun hreset => absurd hreset (by simp [hr])
  ports := fun _ => hports
  errors := herrors

/-! ### The host -/

/-- What the host changes without having a command accepted, reset being released. -/
theorem Inv.host_access {s : State} (h : Inv s) (hr : s.inReset = false) (arg : Word) (held : Option Word)
    (program : List HostStmt) (names : List (Name × Word)) {faults : List RunFault} (hfaults : s.faults ⊆ faults) :
    Inv { s with arg := arg, held := held, program := program, names := names, faults := faults } where
  conversion := h.conversion
  boot := h.boot
  reset := fun hreset => absurd hreset (by simp [hr])
  ports := h.ports
  errors := errorShape_of_subset h.errors id rfl hfaults

theorem accept_keeps_inv {s : State} (h : Inv s) (hr : s.inReset = false) (hs : s.seq = .idle) (v : Word) :
    Inv (accept v s) :=
  inv_of_running hr nofun trivial (h.ports (by simp [hs])) h.errors

theorem hostStmt_keeps_inv {s : State} (h : Inv s) (hr : s.inReset = false) (st : HostStmt) : Inv (hostStmt st s) := by
  have hsame := List.Subset.refl s.faults
  obtain ⟨_, -, h'⟩ | ⟨_, hs, h'⟩ | ⟨_, -, h'⟩ | ⟨_, h'⟩ | ⟨_, h'⟩ | ⟨-, h'⟩ := hostStmt_cases st s <;> rw [h']
  · exact h.host_access hr _ _ _ _ hsame
  · exact accept_keeps_inv h hr hs _
  · exact h.host_access hr _ _ _ _ hsame
  · exact h.host_access hr _ _ _ _ (List.subset_append_left _ _)
  · exact h.host_access hr _ _ _ _ hsame
  · exact h.host_access hr _ _ _ _ hsame

theorem hostStep_keeps_inv {s t : State} (h : Inv s) (hstep : hostStep s = .next t) : Inv t := by
  obtain ⟨-, -, rfl⟩ | ⟨hr, _, -, ⟨hs, rfl⟩ | ⟨-, rfl⟩⟩ | ⟨hr, -, st, rest, -, rfl⟩ := hostStep_next hstep
  · exact h
  · exact accept_keeps_inv (h.host_access hr _ none _ _ (List.Subset.refl _)) hr hs _
  · exact h
  · exact hostStmt_keeps_inv (h.host_access hr _ _ rest _ (List.Subset.refl _)) hr st

/-! ### The engine -/

theorem bootStep_keeps_inv {s : State} (h : Inv s) (hr : s.inReset = false) : Inv (bootStep s) :=
  inv_of_running hr nofun trivial (portsAgree_construct Config.defaultPin .tenBit 60#32 s :)
    (errorShape_of_subset h.errors nofun rfl (List.Subset.refl _))

theorem exec_keeps_portsAgree {i : Instr} {s t : State} (h : portsAgree s) (hexec : exec i s = .next t) :
    portsAgree t := by
  obtain ⟨-, h'⟩ | ⟨-, h'⟩ | ⟨-, p, r, d, h'⟩ | ⟨-, r, h'⟩ | ⟨-, _, h'⟩ | ⟨-, h'⟩ | ⟨-, _, h'⟩ := exec_cases i s <;>
    cases h'.symm.trans hexec
  · exact h
  · exact h
  · exact (portsAgree_construct p r d s :)
  · exact (portsAgree_applyBundle (s := { s with res := r }) h r :)
  all_goals exact h

theorem exec_last {i : Instr} {s t : State} (h : exec i s = .next t) : t.last = s.last ∨ t.last ≠ .illegal := by
  obtain ⟨-, h'⟩ | ⟨-, h'⟩ | ⟨-, _, _, _, h'⟩ | ⟨-, _, h'⟩ | ⟨-, _, h'⟩ | ⟨-, h'⟩ | ⟨-, _, h'⟩ := exec_cases i s <;>
    cases h'.symm.trans h
  · exact .inl rfl
  all_goals exact .inr nofun

theorem exec_conversionShape {i : Instr} {s t : State} (h : exec i s = .next t) :
    t.seq ≠ .boot ∧ conversionShape t := by
  obtain ⟨-, rfl⟩ | ⟨-, hidle, -⟩ := exec_starts_or_completes h
  · exact ⟨nofun, (top_toNat s.res).le, Nat.two_pow_pos _, Nat.zero_mod _⟩
  · exact ⟨by simp [hidle], by simp [conversionShape, hidle]⟩

theorem exec_keeps_inv {i : Instr} {s t : State} (h : Inv s) (hr : s.inReset = false) (hs : s.seq = .exec)
    (hexec : exec i s = .next t) : Inv t := by
  obtain ⟨hseq, hconv⟩ := exec_conversionShape hexec
  have hports := exec_keeps_portsAgree (h.ports (by simp [hs])) hexec
  have hlast := exec_last hexec
  have hframe := exec_frame hexec
  refine inv_of_running (by rw [hframe]; exact hr) hseq hconv hports (errorShape_of_subset h.errors ?_ ?_ ?_)
  · exact fun hill => hlast.elim (fun heq => heq.symm.trans hill) (fun hne => absurd hill hne)
  · rw [hframe]
  · rw [hframe]
    exact List.Subset.refl _

theorem raiseIllegal_keeps_inv {s : State} (h : Inv s) (hr : s.inReset = false) (hs : s.seq = .exec) (w : Word) :
    Inv (raiseIllegal w s) :=
  inv_of_running hr nofun trivial (h.ports (by simp [hs])) ⟨fun _ => rfl, fun _ => ⟨w, by simp⟩⟩

/-- Bits `b` down to 0 of `ACC` are 0 before the trial for bit `b`, so it sets that bit alone (R110). -/
theorem trialStep_keeps_inv {s t : State} (h : Inv s) (hr : s.inReset = false) (hs : s.seq = .cTrial)
    (hstep : trialStep s = .next t) : Inv t := by
  obtain ⟨hfits, rfl⟩ := trialStep_next hstep
  obtain ⟨hbit, hacc, hlow⟩ := h.trial_shape hs
  obtain ⟨hrange, hset⟩ := setBit_arith hbit hacc hlow
  have hv : (BitVec.ofNat 10 (s.acc.toNat + 2 ^ s.bit.toNat)).toNat = s.acc.toNat + 2 ^ s.bit.toNat :=
    Nat.mod_eq_of_lt hfits
  have hports : portsAgree { s with hist := s.hist ++ [.duty (BitVec.ofNat 32 (s.acc.toNat + 2 ^ s.bit.toNat))] } :=
    portsAgree_append (h.ports (by simp [hs])) rfl rfl rfl
  refine inv_of_running hr nofun ?_ hports h.errors
  simp only [conversionShape, hv]
  exact ⟨hbit, hrange, hset, le_rfl⟩

theorem settled_keeps_inv {s : State} (h : Inv s) (hr : s.inReset = false) (hs : s.seq = .cSettle)
    (hc : s.scnt = 0#32) : Inv { s with seq := .cSample } := by
  obtain ⟨hbit, hacc, hlow, -⟩ := h.settle_shape hs
  exact inv_of_running hr nofun ⟨hbit, hacc, hlow, hc⟩ (h.ports (by simp [hs])) h.errors

/-- What `decideBit` gives as a number, where bit `b` is the lowest 1 of `ACC`: it stays in range, and bits `b - 1` down
to 0 stay 0 (41_conversion.md R110). -/
theorem decideBit_arith {l : Level} {b : Nat} {acc a : BitVec 10} (h : decideBit l b acc = some a)
    (hlow : acc.toNat % 2 ^ (b + 1) = 2 ^ b) : a.toNat ≤ acc.toNat ∧ a.toNat % 2 ^ b = 0 := by
  obtain ⟨-, hkept, hcleared⟩ := clearBit_arith hlow
  obtain ⟨-, rfl⟩ | ⟨-, -, rfl⟩ := decideBit_some h
  · exact ⟨le_rfl, hkept⟩
  · rw [BitVec.toNat_ofNat, Nat.mod_eq_of_lt ((Nat.sub_le _ _).trans_lt acc.isLt)]
    exact ⟨Nat.sub_le _ _, hcleared⟩

theorem sampleStep_keeps_inv {s t : State} (h : Inv s) (hr : s.inReset = false) (hs : s.seq = .cSample)
    (hstep : sampleStep s = .next t) : Inv t := by
  obtain ⟨l, acc, -, hacc, rfl⟩ := sampleStep_next hstep
  obtain ⟨hbit, hrange, hlow, -⟩ := h.sample_shape hs
  obtain ⟨hle, hzero⟩ := decideBit_arith hacc hlow
  have hports : portsAgree { s with hist := s.hist ++ [.read s.pin l] } :=
    portsAgree_append (h.ports (by simp [hs])) rfl rfl rfl
  by_cases hb : s.bit = 0#4
  · simp only [if_pos hb]
    exact inv_of_running hr nofun trivial hports (errorShape_of_subset h.errors nofun rfl (List.Subset.refl _))
  · simp only [if_neg hb]
    have hpred := bit_pred_toNat s.bit hb
    refine inv_of_running hr nofun ⟨?_, hle.trans_lt hrange, ?_⟩ hports h.errors
    · exact (Nat.le_of_succ_le hpred.le).trans hbit
    · rw [hpred]
      exact hzero

theorem engineStep_keeps_inv {s t : State} (h : Inv s) (hstep : engineStep s = .next t) : Inv t := by
  obtain ⟨-, rfl⟩ | ⟨hr, ⟨-, rfl⟩ | ⟨hs, _, -, hexec⟩ | ⟨hs, _, -, rfl⟩ | ⟨hs, htrial⟩ | ⟨hs, hc, rfl⟩ | ⟨hs, hsamp⟩⟩ :=
    engineStep_next hstep
  · exact h
  · exact bootStep_keeps_inv h hr
  · exact exec_keeps_inv h hr hs hexec
  · exact raiseIllegal_keeps_inv h hr hs _
  · exact trialStep_keeps_inv h hr hs htrial
  · exact settled_keeps_inv h hr hs hc
  · exact sampleStep_keeps_inv h hr hs hsamp

/-! ### Ticks and reset -/

/-- `SCNT` counts down by one and never wraps (60_exceptions.md R127). -/
theorem scnt_pred_toNat {c : Word} (h : c ≠ 0#32) : (c - 1#32).toNat + 1 = c.toNat := by
  bv_omega

theorem tickStep_keeps_inv {s : State} (h : Inv s) : Inv (tickStep s) := by
  obtain ⟨h', -⟩ | ⟨hr, hs, hc, h'⟩ := tickStep_cases s <;> rw [h']
  · exact h
  · obtain ⟨hbit, hacc, hlow, hle⟩ := h.settle_shape hs
    have hpred := scnt_pred_toNat hc
    refine inv_of_running hr (by simp [hs]) ?_ (h.ports (by simp [hs])) h.errors
    simp only [conversionShape, hs]
    exact ⟨hbit, hacc, hlow, by omega⟩

/-- An asserted reset makes the invariant hold, whatever was before (70_reset_and_hazards.md R133). -/
theorem inv_assertReset (s : State) : Inv (assertReset s) := by
  rw [assertReset_eq]
  exact {
    conversion := trivial
    boot := fun _ => ⟨rfl, rfl, rfl, rfl, rfl, rfl, rfl, rfl, rfl, rfl, rfl, rfl⟩
    reset := fun _ => ⟨rfl, rfl, rfl⟩
    ports := fun h => absurd rfl h
    errors := ⟨nofun, nofun⟩ }

theorem releaseReset_keeps_inv {s : State} (h : Inv s) : Inv (releaseReset s) :=
  ⟨h.conversion, h.boot, nofun, h.ports, h.errors⟩

/-- The invariant is kept by every step that goes on, whichever agent takes it. -/
theorem step_keeps_inv {s t : State} (h : Inv s) (hstep : step s = .next t) : Inv t := by
  obtain ⟨ts, k, hhost | hengine | rfl | rfl | rfl⟩ := step_next hstep
  · exact hostStep_keeps_inv (h.withTurns ts k) hhost
  · exact engineStep_keeps_inv (h.withTurns ts k) hengine
  · exact tickStep_keeps_inv (h.withTurns ts k)
  · exact inv_assertReset _
  · exact releaseReset_keeps_inv (h.withTurns ts k)

/-- Settles O35, agent by agent. -/
theorem everyStepKeepsInv : Obligations.EveryStepKeepsInv := fun _ _ => step_keeps_inv

end Sys2Proof.Machine
end

section
/-! What the nine commands leave (spec/40_configuration.md sections 3 and 4), and what no step changes while a
conversion runs (spec/41_conversion.md R115). -/

namespace Sys2Proof.Machine

/-! ### The frame of each command -/

/-- Only CONV writes `ACC` and `BIT`, and it completes nothing (41_conversion.md R103). -/
theorem exec_acc_bit {i : Instr} {s t : State} (h : exec i s = .next t) (hi : i ≠ .conv) :
    t.acc = s.acc ∧ t.bit = s.bit := by
  obtain ⟨hconv, -⟩ | ⟨-, h'⟩ | ⟨-, _, _, _, h'⟩ | ⟨-, _, h'⟩ | ⟨-, _, h'⟩ | ⟨-, h'⟩ | ⟨-, _, h'⟩ := exec_cases i s
  · exact absurd hconv hi
  all_goals cases h'.symm.trans h; exact ⟨rfl, rfl⟩

/-- Which commands leave which register of the configuration, and the history (40_configuration.md section 3). -/
theorem exec_leaves {i : Instr} {s t : State} (h : exec i s = .next t) :
    (i ∈ [.conv, .getdly, .getres] → t.res = s.res ∧ t.delay = s.delay) ∧
    (i ∈ [.conv, .getdly, .getres, .setdly, .setres] → t.bres = s.bres ∧ t.hist = s.hist) ∧
    (i ∈ [.conv, .getdly, .getres, .setdly, .setres, .setrescfg] → t.pin = s.pin) ∧
    (i = .setdly → t.res = s.res) ∧ (i ∈ [.setres, .setrescfg] → t.delay = s.delay) := by
  obtain ⟨-, h'⟩ | ⟨-, h'⟩ | ⟨hi, _, _, _, h'⟩ | ⟨rfl, _, h'⟩ | ⟨rfl, _, h'⟩ | ⟨rfl, h'⟩ | ⟨-, _, h'⟩ := exec_cases i s
    <;> cases h'.symm.trans h
  · simp
  · simp
  · obtain ⟨_, rfl⟩ | ⟨_, rfl⟩ | rfl := hi <;> simp
  all_goals simp

/-- Settles O27: the frame that all commands share, and then that of each. -/
theorem commandFrame : Obligations.CommandFrame := by
  intro i s t h
  refine ⟨exec_frame h, exec_acc_bit h, fun hconv => ?_, exec_leaves h⟩
  subst hconv
  cases h
  exact ⟨rfl, rfl⟩

/-! ### While the engine is busy -/

/-- Until the engine is idle the host reaches neither the latches nor `SEQ` (20_memory.md R51). -/
theorem hostStep_busy_frame {s t : State} (h : hostStep s = .next t) (hs : s.seq ≠ .idle) :
    t = { s with
      arg := t.arg, held := t.held, faults := t.faults, program := t.program, names := t.names } := by
  obtain ⟨-, -, rfl⟩ | ⟨-, _, -, ⟨hidle, -⟩ | ⟨-, rfl⟩⟩ | ⟨-, -, st, rest, -, rfl⟩ := hostStep_next h
  · rfl
  · exact absurd hidle hs
  · rfl
  · obtain ⟨_, -, h'⟩ | ⟨_, hidle, -⟩ | ⟨_, -, h'⟩ | ⟨_, h'⟩ | ⟨_, h'⟩ | ⟨-, h'⟩ :=
      hostStmt_cases st { s with program := rest }
    · rw [h']
    · exact absurd hidle hs
    all_goals rw [h'] <;> rfl

/-- While the engine is busy, only its own steps and an asserted reset do anything to the command in progress: every
other step leaves all but `SCNT` and the host's side. -/
theorem step_busy {s t : State} (h : step s = .next t) (hs : s.seq ≠ .idle) (hr : t.inReset = false) :
    (∃ ts k, engineStep { s with turns := ts, turnNo := k } = .next t) ∨
    t = { s with
      scnt := t.scnt, arg := t.arg, inReset := false, held := t.held, faults := t.faults, program := t.program,
      names := t.names, turns := t.turns, turnNo := t.turnNo } := by
  obtain ⟨ts, k, h | h | rfl | rfl | rfl⟩ := step_next h
  · rw [hostStep_busy_frame h hs] at hr ⊢
    exact .inr (by rw [← hr])
  · exact .inl ⟨ts, k, h⟩
  · rw [tickStep_frame] at hr ⊢
    exact .inr (by rw [← hr])
  · cases hr
  · exact .inr rfl

theorem converting_phase {s : State} (h : converting s) : s.seq ≠ .idle ∧ s.seq ≠ .boot ∧ s.seq ≠ .exec := by
  obtain h | h | h := h <;> simp [h]

/-- Settles O38: of the engine's steps only those in `BOOT` and `EXEC` write the configuration, and none writes the
latches. -/
theorem configurationFixedWhileConverting : Obligations.ConfigurationFixedWhileConverting := by
  intro s t hs h
  obtain ⟨hidle, hboot, hexec⟩ := converting_phase hs
  cases hr : t.inReset with
  | true => exact .inl rfl
  | false =>
    refine .inr ?_
    obtain ⟨_, _, h⟩ | h := step_busy h hidle hr
    · obtain ⟨hs, -⟩ | ⟨hs, -⟩ | ⟨hs, -⟩ | h := engineStep_boot_or_exec_or_frame h
      · exact absurd hs hboot
      · exact absurd hs hexec
      · exact absurd hs hexec
      · rw [h]
        exact ⟨rfl, rfl, rfl, rfl, rfl, rfl⟩
    · rw [h]
      exact ⟨rfl, rfl, rfl, rfl, rfl, rfl⟩

end Sys2Proof.Machine
end

section
/-! The engine's steps of a conversion: start, trial, settle and sample (spec/41_conversion.md R103 to R107), each with
its whole next state. -/

namespace Sys2Proof.Machine

/-! ### Which step the engine takes in each phase -/

section
variable {s : State} {ts : List Turn}

theorem step_of_trial (hnext : engineNext s ts) (hs : s.seq = .cTrial) : step s = trialStep { s with turns := ts } := by
  obtain ⟨hturns, hr⟩ := hnext
  rw [step_of_turns hturns]
  simp [agentStep, engineStep, hr, hs]

theorem step_of_settle (hnext : engineNext s ts) (hs : s.seq = .cSettle) :
    step s = settleStep { s with turns := ts } := by
  obtain ⟨hturns, hr⟩ := hnext
  rw [step_of_turns hturns]
  simp [agentStep, engineStep, hr, hs]

theorem step_of_sample (hnext : engineNext s ts) (hs : s.seq = .cSample) :
    step s = sampleStep { s with turns := ts } := by
  obtain ⟨hturns, hr⟩ := hnext
  rw [step_of_turns hturns]
  simp [agentStep, engineStep, hr, hs]

/-! ### The next state of each step -/

theorem exec_conv_eq (s : State) :
    exec .conv s = .next { s with acc := 0#10, seq := .cTrial, bit := BitVec.ofNat 4 (top s.res) } := rfl

theorem step_trial (hnext : engineNext s ts) (hs : s.seq = .cTrial) (hfits : s.acc.toNat + 2 ^ s.bit.toNat < 1024) :
    step s = .next { s with
      turns := ts, acc := BitVec.ofNat 10 (s.acc.toNat + 2 ^ s.bit.toNat),
      hist := s.hist ++ [.duty (BitVec.ofNat 32 (s.acc.toNat + 2 ^ s.bit.toNat))], scnt := s.delay,
      seq := .cSettle } := by
  rw [step_of_trial hnext hs]
  exact if_pos hfits

theorem step_settle (hnext : engineNext s ts) (hs : s.seq = .cSettle) :
    step s = .next { s with turns := ts, seq := if s.scnt = 0#32 then .cSample else .cSettle } := by
  rw [step_of_settle hnext hs]
  by_cases hc : s.scnt = 0#32 <;> simp [settleStep, hc, hs]

theorem decideBit_toNat {l : Level} {b : Nat} {acc a : BitVec 10} (h : decideBit l b acc = some a) :
    a.toNat = if l = .low then acc.toNat - 2 ^ b else acc.toNat := by
  obtain ⟨rfl, rfl⟩ | ⟨rfl, -, rfl⟩ := decideBit_some h
  · rfl
  · exact Nat.mod_eq_of_lt ((Nat.sub_le _ _).trans_lt acc.isLt)

/-- The sample step where bit `BIT` of `ACC` can be cleared: the level is the next one that the comparator answers. -/
theorem step_sample (hnext : engineNext s ts) (hs : s.seq = .cSample) (hset : 2 ^ s.bit.toNat ≤ s.acc.toNat) :
    ∃ (l : Level) (acc : BitVec 10), (s.levels ≠ [] → s.levels.head? = some l) ∧
      acc.toNat = (if l = .low then s.acc.toNat - 2 ^ s.bit.toNat else s.acc.toNat) ∧
      step s = .next { s with
        turns := ts, acc := acc, hist := s.hist ++ [.read s.pin l], levels := s.levels.tail,
        draws := if s.levels = [] then s.draws + 1 else s.draws,
        rsp := if s.bit = 0#4 then acc.setWidth 32 else s.rsp,
        last := if s.bit = 0#4 then .ok else s.last,
        seq := if s.bit = 0#4 then .idle else .cTrial,
        bit := if s.bit = 0#4 then s.bit else s.bit - 1#4 } := by
  rw [step_of_sample hnext hs]
  obtain ⟨t, ht⟩ := sampleStep_goesOn (s := { s with turns := ts }) hset
  obtain ⟨l, acc, hl, hacc, rfl⟩ := sampleStep_next ht
  exact ⟨l, acc, fun hne => hl ▸ sample_fst s.pin { s with turns := ts } hne, decideBit_toNat hacc, ht⟩

end

/-! ### The statements about single steps. Three of them have the name of the step itself, hence the namespace. -/

namespace Conversion

/-- Settles O28: `top` written out for both resolutions, and the step of the command that `CMDL` decodes to. -/
theorem conversionStart : Obligations.ConversionStart := by
  refine ⟨fun s => ?_, fun s ts => step_of_exec_legal⟩
  rw [exec_conv_eq]
  cases s.res <;> rfl

/-- Settles O29: under the invariant the sum fits `ACC`, so the duty count sent is `ACC` itself. -/
theorem trialStep : Obligations.TrialStep := by
  intro s ts hnext hs hinv
  have hfits := hinv.trial_fits hs
  refine ⟨BitVec.ofNat 10 (s.acc.toNat + 2 ^ s.bit.toNat), Nat.mod_eq_of_lt hfits, ?_⟩
  rw [step_trial hnext hs hfits, BitVec.setWidth_ofNat_of_le_of_lt (by decide) hfits]

/-- Settles O30: with `SCNT` above 0 the engine has no step. -/
theorem settleStep : Obligations.SettleStep := fun _ _ => step_settle

/-- Settles O31: under the invariant the bit that a LOW clears is set, and `BIT` counts down without wrapping. -/
theorem sampleStep : Obligations.SampleStep := by
  intro s ts hnext hs hb hinv
  obtain ⟨l, acc, hl, hacc, hstep⟩ := step_sample hnext hs (hinv.sample_fits hs)
  refine ⟨l, acc, s.bit - 1#4, hl, hacc, bit_pred_toNat s.bit hb, ?_⟩
  rw [hstep]
  simp only [if_neg hb]

/-- Settles O32: the same step at bit 0 completes with the new `ACC`. -/
theorem lastSampleStep : Obligations.LastSampleStep := by
  intro s ts hnext hs hb hinv
  obtain ⟨l, acc, hl, hacc, hstep⟩ := step_sample hnext hs (hinv.sample_fits hs)
  refine ⟨l, acc, hl, ?_, ?_⟩
  · simpa [hb] using hacc
  · rw [hstep]
    simp only [if_pos hb]

end Conversion

end Sys2Proof.Machine
end

section
/-! The source's algorithm on its own (spec/41_conversion.md R102): the code it returns, and the events it sends, for
any levels read and from any accumulator. -/

namespace Sys2Proof.Machine

/-! ### The code (R109) -/

/-- What the level read for bit `b` adds to the code. -/
def bitValue (l : Level) (b : Nat) : Nat := if l = .high then 2 ^ b else 0

theorem bitValue_le (l : Level) (b : Nat) : bitValue l b ≤ 2 ^ b := by
  cases l
  · exact Nat.zero_le _
  · exact le_rfl

theorem codeOf_nil : codeOf [] = 0 := rfl

theorem codeOf_cons (l : Level) (ls : List Level) : codeOf (l :: ls) = bitValue l ls.length + codeOf ls := rfl

theorem codeOf_lt (ls : List Level) : codeOf ls < 2 ^ ls.length := by
  induction ls with
  | nil => exact Nat.one_pos
  | cons l ls ih =>
    rw [codeOf_cons, List.length_cons, Nat.pow_succ]
    have := bitValue_le l ls.length
    omega

/-- Bit `b` of the code is the level read for it: later reads add less than `2^b`. -/
theorem codeOf_testBit (ls : List Level) {b : Nat} (hb : b < ls.length) :
    (codeOf ls).testBit b = true ↔ ls[ls.length - 1 - b]? = some .high := by
  induction ls with
  | nil => cases hb
  | cons l ls ih =>
    have hlt := codeOf_lt ls
    rw [List.length_cons, Nat.lt_succ_iff_lt_or_eq] at hb
    obtain hb | rfl := hb
    · have hindex : (l :: ls).length - 1 - b = (ls.length - 1 - b) + 1 := by simp only [List.length_cons]; omega
      rw [hindex, List.getElem?_cons_succ, ← ih hb]
      cases l
      · simp [codeOf_cons, bitValue]
      · simp [codeOf_cons, bitValue, Nat.testBit_two_pow_add_gt hb]
    · cases l
      · simp [codeOf_cons, bitValue, Nat.testBit_lt_two_pow hlt]
      · simp [codeOf_cons, bitValue, Nat.testBit_two_pow_add_eq, Nat.testBit_lt_two_pow hlt]

/-! ### One pass of the loop (R102) -/

@[simp] theorem algorithm_nil (p : Pin) (acc : Nat) : algorithm p acc [] = ([], acc) := rfl

/-- A pass for bit `b` sends the trial value and reads, and leaves the accumulator with what the level adds. -/
@[simp] theorem algorithm_cons (p : Pin) (acc : Nat) (l : Level) (ls : List Level) :
    algorithm p acc (l :: ls) =
      (.duty (BitVec.ofNat 32 (acc + 2 ^ ls.length)) :: .read p l ::
        (algorithm p (acc + bitValue l ls.length) ls).1, (algorithm p (acc + bitValue l ls.length) ls).2) := by
  cases l <;> simp [algorithm, bitValue]

/-- What the algorithm returns: the accumulator it starts from and the code of the levels (R109). -/
theorem algorithm_snd (p : Pin) (acc : Nat) (ls : List Level) : (algorithm p acc ls).2 = acc + codeOf ls := by
  induction ls generalizing acc with
  | nil => rfl
  | cons l ls ih => rw [algorithm_cons, ih, codeOf_cons, Nat.add_assoc]

theorem levelsRead_algorithm (p : Pin) (acc : Nat) (ls : List Level) : levelsRead (algorithm p acc ls).1 = ls := by
  induction ls generalizing acc with
  | nil => rfl
  | cons l ls ih => simp [levelsRead, ih]

/-! ### Order of the events (R111) -/

theorem algorithm_length (p : Pin) (acc : Nat) (ls : List Level) : (algorithm p acc ls).1.length = 2 * ls.length := by
  induction ls generalizing acc with
  | nil => rfl
  | cons l ls ih => simp [ih, Nat.mul_succ]

theorem algorithm_alternates (p : Pin) (acc : Nat) (ls : List Level) {k : Nat} (hk : k < ls.length) :
    (∃ d : Word, (algorithm p acc ls).1[2 * k]? = some (.duty d)) ∧
      ∃ l : Level, (algorithm p acc ls).1[2 * k + 1]? = some (.read p l) := by
  induction ls generalizing acc k with
  | nil => cases hk
  | cons l ls ih =>
    cases k with
    | zero => exact ⟨⟨BitVec.ofNat 32 (acc + 2 ^ ls.length), by simp⟩, l, by simp⟩
    | succ k => simpa [Nat.mul_succ] using ih (acc + bitValue l ls.length) (Nat.lt_of_succ_lt_succ hk)

/-! ### Trial values (R108, R112) -/

theorem dutiesSent_algorithm_cons (p : Pin) (acc : Nat) (l : Level) (ls : List Level) :
    dutiesSent (algorithm p acc (l :: ls)).1 =
      BitVec.ofNat 32 (acc + 2 ^ ls.length) :: dutiesSent (algorithm p (acc + bitValue l ls.length) ls).1 := by
  simp [dutiesSent]

theorem dutiesSent_algorithm_length (p : Pin) (acc : Nat) (ls : List Level) :
    (dutiesSent (algorithm p acc ls).1).length = ls.length := by
  induction ls generalizing acc with
  | nil => rfl
  | cons l ls ih => rw [dutiesSent_algorithm_cons, List.length_cons, ih, List.length_cons]

/-- Each trial value is above the accumulator the algorithm starts from, and below what all levels HIGH would give. -/
theorem dutiesSent_algorithm_range (p : Pin) (acc : Nat) (ls : List Level) :
    ∀ d ∈ dutiesSent (algorithm p acc ls).1, ∃ v, d = BitVec.ofNat 32 v ∧ acc < v ∧ v < acc + 2 ^ ls.length := by
  induction ls generalizing acc with
  | nil => nofun
  | cons l ls ih =>
    have hpos : 0 < 2 ^ ls.length := Nat.two_pow_pos _
    have hbit := bitValue_le l ls.length
    rw [dutiesSent_algorithm_cons, List.forall_mem_cons, List.length_cons, Nat.pow_succ]
    refine ⟨⟨_, rfl, by omega, by omega⟩, fun d hd => ?_⟩
    obtain ⟨v, rfl, hlow, hhigh⟩ := ih (acc + bitValue l ls.length) d hd
    exact ⟨v, rfl, by omega, by omega⟩

/-- The trial value for bit `b` is what the algorithm returns with bits `b` down to 0 cleared, plus `2^b`: the passes
before it decided the bits above `b`, and those after it change none of them. -/
theorem dutiesSent_algorithm_getElem? (p : Pin) {acc : Nat} {ls : List Level} (hacc : acc % 2 ^ ls.length = 0) {b : Nat}
    (hb : b < ls.length) :
    (dutiesSent (algorithm p acc ls).1)[ls.length - 1 - b]? =
      some (BitVec.ofNat 32 ((acc + codeOf ls) / 2 ^ (b + 1) * 2 ^ (b + 1) + 2 ^ b)) := by
  induction ls generalizing acc with
  | nil => cases hb
  | cons l ls ih =>
    rw [dutiesSent_algorithm_cons]
    rw [List.length_cons] at hacc hb
    obtain hb | rfl := Nat.lt_succ_iff_lt_or_eq.1 hb
    · have hindex : (l :: ls).length - 1 - b = (ls.length - 1 - b) + 1 := by simp only [List.length_cons]; omega
      have hdvd : 2 ^ ls.length ∣ acc := (pow_dvd_pow 2 (Nat.le_succ _)).trans (Nat.dvd_of_mod_eq_zero hacc)
      have hbit : 2 ^ ls.length ∣ bitValue l ls.length := by cases l <;> simp [bitValue]
      rw [hindex, List.getElem?_cons_succ, ih (Nat.mod_eq_zero_of_dvd (dvd_add hdvd hbit)) hb, codeOf_cons,
        Nat.add_assoc]
    · have hlt : codeOf (l :: ls) < 2 ^ (ls.length + 1) := codeOf_lt (l :: ls)
      have hdecided : (acc + codeOf (l :: ls)) / 2 ^ (ls.length + 1) * 2 ^ (ls.length + 1) = acc := by
        obtain ⟨m, rfl⟩ := Nat.dvd_of_mod_eq_zero hacc
        rw [Nat.mul_add_div (Nat.two_pow_pos _), Nat.div_eq_of_lt hlt, Nat.add_zero, Nat.mul_comm]
      simp [hdecided]

/-! ### A threshold comparator (R113) -/

/-- With levels that follow the threshold `T`, the algorithm returns `T` clamped to what the bits still to be decided
can give: a HIGH raises the lower bound to the trial value, a LOW lowers the upper bound below it. -/
theorem codeOf_of_threshold (p : Pin) {acc d : Nat} {ls : List Level} {T : Int} (hfits : acc + 2 ^ ls.length ≤ 2 ^ 32)
    (h : readsFollow (thresholdMock T) d (algorithm p acc ls).1 = true) :
    ((acc + codeOf ls : Nat) : Int) = max (acc : Int) (min T (acc + 2 ^ ls.length - 1)) := by
  induction ls generalizing acc d with
  | nil => simp [codeOf_nil]
  | cons l ls ih =>
    have hpos : 0 < 2 ^ ls.length := Nat.two_pow_pos _
    have hbit := bitValue_le l ls.length
    rw [List.length_cons, Nat.pow_succ] at hfits
    have htrial : (BitVec.ofNat 32 (acc + 2 ^ ls.length)).toNat = acc + 2 ^ ls.length :=
      Nat.mod_eq_of_lt (by omega)
    rw [algorithm_cons] at h
    simp only [readsFollow, htrial, Bool.and_eq_true, beq_iff_eq] at h
    obtain ⟨hl, hrest⟩ := h
    have hposInt : (0 : Int) < 2 ^ ls.length := by positivity
    rw [codeOf_cons, ← Nat.add_assoc, ih (by omega) hrest, List.length_cons, pow_succ]
    by_cases hT : ((acc + 2 ^ ls.length : Nat) : Int) ≤ T
    · obtain rfl : l = .high := hl.trans (if_pos hT)
      simp only [bitValue, if_true]
      push_cast at hT ⊢
      omega
    · obtain rfl : l = .low := hl.trans (if_neg hT)
      simp only [bitValue, reduceCtorEq, if_false]
      push_cast at hT ⊢
      omega

end Sys2Proof.Machine
end

section
/-! Whole conversions, whichever agents step in between (spec/41_conversion.md R101, R102, R108 to R113): each step from
acceptance to completion leaves the conversion where it was or carries out the next piece of the algorithm. -/

namespace Sys2Proof.Machine

/-! ### Runs to a state -/

/-- What a run to a state that meets `stop` did first. -/
theorem runUntil_some {stop : State → Bool} {n : Nat} {s t : State} (h : runUntil stop n s = some t) :
    s.inReset = false ∧
    ((stop s = true ∧ t = s) ∨
      (stop s = false ∧ ∃ m u, n = m + 1 ∧ step s = .next u ∧ runUntil stop m u = some t)) := by
  cases n with
  | zero => cases h
  | succ m =>
    rw [runUntil_succ] at h
    split at h
    · cases h
    · rename_i hr
      refine ⟨by simpa using hr, ?_⟩
      split at h
      · rename_i hstop
        cases h
        exact .inl ⟨hstop, rfl⟩
      · rename_i hstop
        split at h
        · rename_i u hstep
          exact .inr ⟨by simpa using hstop, m, u, rfl, hstep, h⟩
        · cases h

/-- A property that holds at the end of such a run, and that each of its steps carries back, holds at its start. -/
theorem runUntil_induction {stop : State → Bool} {t : State} {motive : State → Prop}
    (done : t.inReset = false → stop t = true → motive t)
    (back : ∀ s u, stop s = false → step s = .next u → u.inReset = false → motive u → motive s) {n : Nat} {s : State}
    (h : runUntil stop n s = some t) : motive s := by
  induction n generalizing s with
  | zero => cases h
  | succ n ih =>
    obtain ⟨hr, ⟨hstop, rfl⟩ | ⟨hstop, m, u, hn, hstep, hrest⟩⟩ := runUntil_some h
    · exact done hr hstop
    · cases hn
      exact back s u hstop hstep (runUntil_some hrest).1 (ih hrest)

/-! ### The algorithm from the middle of a conversion -/

/-- A state from the acceptance of CONV to its completion: bit `BIT` of `ACC` can be cleared at its sample (R110), and
the completion responds with `ACC` (R107). -/
def onTheWay (s : State) : Prop :=
  match s.seq with
  | .boot => False
  | .idle => s.rsp = s.acc.setWidth 32 ∧ s.last = .ok
  | .exec => s.cmdl = 0x00000004#32
  | .cTrial => True
  | .cSettle => 2 ^ s.bit.toNat ≤ s.acc.toNat
  | .cSample => 2 ^ s.bit.toNat ≤ s.acc.toNat

/-- How many levels the conversion has still to read. -/
def bitsLeft (s : State) : Nat :=
  match s.seq with
  | .exec => top s.res + 1
  | .cTrial | .cSettle | .cSample => s.bit.toNat + 1
  | _ => 0

/-- What the algorithm still sends, and what it returns, for the levels still to be read. Between a trial and its sample
it is in the middle of a pass, with the duty count sent and the bit set. -/
def remaining (s : State) (ls : List Level) : List Event × Nat :=
  match s.seq with
  | .exec => algorithm s.pin 0 ls
  | .cTrial => algorithm s.pin s.acc.toNat ls
  | .cSettle | .cSample =>
    ((algorithm s.pin (s.acc.toNat - 2 ^ s.bit.toNat) ls).1.tail,
      (algorithm s.pin (s.acc.toNat - 2 ^ s.bit.toNat) ls).2)
  | _ => ([], s.acc.toNat)

/-- Between `s` and `t` the levels `ls` were read and the events `es` sent, as the algorithm has it, and the
configuration and the sticky flag were left. -/
structure CarriesOut (s t : State) (ls : List Level) (es : List Event) : Prop where
  left : bitsLeft s = ls.length + bitsLeft t
  rest : ∀ more : List Level, more.length = bitsLeft t →
    remaining s (ls ++ more) = (es ++ (remaining t more).1, (remaining t more).2)
  levels : ls.length ≤ s.levels.length → s.levels = ls ++ t.levels
  hist : t.hist = s.hist ++ es
  configuration : sameConfiguration s t
  ill : t.ill = s.ill

theorem CarriesOut.trans {s t u : State} {ls ls' : List Level} {es es' : List Event} (h : CarriesOut s t ls es)
    (h' : CarriesOut t u ls' es') : CarriesOut s u (ls ++ ls') (es ++ es') where
  left := by rw [h.left, h'.left, List.length_append, Nat.add_assoc]
  rest := fun more hmore => by
    have hlen : (ls' ++ more).length = bitsLeft t := by rw [List.length_append, hmore, h'.left]
    rw [List.append_assoc, h.rest _ hlen, h'.rest _ hmore, List.append_assoc]
  levels := fun hlen => by
    rw [List.length_append] at hlen
    have hs := h.levels (by omega)
    have ht := h'.levels (by rw [hs, List.length_append] at hlen; omega)
    rw [hs, ht, List.append_assoc]
  hist := by rw [h'.hist, h.hist, List.append_assoc]
  configuration := by
    obtain ⟨hres, hdelay, hpin, hbres⟩ := h.configuration
    obtain ⟨hres', hdelay', hpin', hbres'⟩ := h'.configuration
    exact ⟨hres'.trans hres, hdelay'.trans hdelay, hpin'.trans hpin, hbres'.trans hbres⟩
  ill := h'.ill.trans h.ill

/-- A step that leaves all but `SCNT`, the host's side and the turns leaves the conversion where it was. -/
theorem carriesOut_frame (s : State) (scnt arg : Word) (r : Bool) (held : Option Word) (faults : List RunFault)
    (program : List HostStmt) (names : List (Name × Word)) (turns : List Turn) (k : Nat) :
    CarriesOut s { s with
      scnt := scnt, arg := arg, inReset := r, held := held, faults := faults, program := program, names := names,
      turns := turns, turnNo := k } [] [] where
  left := (Nat.zero_add _).symm
  rest := fun _ _ => rfl
  levels := fun _ => rfl
  hist := (List.append_nil _).symm
  configuration := ⟨rfl, rfl, rfl, rfl⟩
  ill := rfl

/-! ### The engine's steps -/

theorem start_carriesOut {s : State} (hs : s.seq = .exec) :
    CarriesOut s { s with acc := 0#10, seq := .cTrial, bit := BitVec.ofNat 4 (top s.res) } [] [] where
  left := by simp only [bitsLeft, hs, top_toNat, List.length_nil, Nat.zero_add]
  rest := fun _ _ => by simp only [remaining, hs]; rfl
  levels := fun _ => rfl
  hist := (List.append_nil _).symm
  configuration := ⟨rfl, rfl, rfl, rfl⟩
  ill := rfl

/-- The trial sends the duty count of the pass, and leaves the bit set. -/
theorem trial_carriesOut {s t : State} (hs : s.seq = .cTrial) (h : trialStep s = .next t) :
    onTheWay t ∧ CarriesOut s t [] [.duty (BitVec.ofNat 32 (s.acc.toNat + 2 ^ s.bit.toNat))] := by
  obtain ⟨hfits, rfl⟩ := trialStep_next h
  have hv : (BitVec.ofNat 10 (s.acc.toNat + 2 ^ s.bit.toNat)).toNat = s.acc.toNat + 2 ^ s.bit.toNat :=
    Nat.mod_eq_of_lt hfits
  refine ⟨(Nat.le_add_left _ _).trans hv.ge, ?_⟩
  exact {
    left := by simp only [bitsLeft, hs, List.length_nil, Nat.zero_add]
    rest := fun more hmore => by
      cases more with
      | nil => cases hmore
      | cons l ls =>
        have hlen : ls.length = s.bit.toNat := Nat.succ.inj hmore
        simp [remaining, hs, hv, hlen]
    levels := fun _ => rfl
    hist := rfl
    configuration := ⟨rfl, rfl, rfl, rfl⟩
    ill := rfl }

theorem settle_carriesOut {s : State} (hs : s.seq = .cSettle) : CarriesOut s { s with seq := .cSample } [] [] where
  left := by simp only [bitsLeft, hs, List.length_nil, Nat.zero_add]
  rest := fun _ _ => by simp only [remaining, hs]; rfl
  levels := fun _ => rfl
  hist := (List.append_nil _).symm
  configuration := ⟨rfl, rfl, rfl, rfl⟩
  ill := rfl

/-- The sample keeps or clears the bit: it leaves what the level adds to the accumulator of before the trial. -/
theorem decideBit_bitValue {l : Level} {b : Nat} {acc a : BitVec 10} (h : decideBit l b acc = some a)
    (hset : 2 ^ b ≤ acc.toNat) : a.toNat = acc.toNat - 2 ^ b + bitValue l b := by
  rw [decideBit_toNat h]
  cases l
  · rfl
  · exact (Nat.sub_add_cancel hset).symm

/-- After the sample the algorithm goes on from `ACC`, with a level for each bit below `BIT` left to read. -/
theorem sampleStep_remaining {s t : State} (h : sampleStep s = .next t) :
    onTheWay t ∧ bitsLeft t = s.bit.toNat ∧
      ∀ more : List Level, more.length = s.bit.toNat → remaining t more = algorithm s.pin t.acc.toNat more := by
  obtain ⟨_, _, -, -, rfl⟩ := sampleStep_next h
  by_cases hb : s.bit = 0#4
  · refine ⟨by simp [onTheWay, hb], by simp [bitsLeft, hb], fun more hmore => ?_⟩
    rw [List.length_eq_zero_iff.1 (hmore.trans (by simp [hb])), algorithm_nil]
    simp [remaining, hb]
  · refine ⟨by simp [onTheWay, hb], ?_, fun more _ => by simp [remaining, hb]⟩
    simp only [bitsLeft, if_neg hb]
    exact bit_pred_toNat s.bit hb

/-- The level that a sample reads is the first of those the comparator still answers. -/
theorem levels_of_sample {p : Pin} {s : State} {l : Level} (hl : l = (sample p s).1) (hne : s.levels ≠ []) :
    s.levels = l :: s.levels.tail := by
  rw [hl]
  exact List.eq_cons_of_mem_head? (sample_fst p s hne)

/-- The sample reads the level that ends the pass. -/
theorem sample_carriesOut {s t : State} (hs : s.seq = .cSample) (hw : onTheWay s) (h : sampleStep s = .next t) :
    onTheWay t ∧ ∃ l, CarriesOut s t [l] [.read s.pin l] := by
  have hset : 2 ^ s.bit.toNat ≤ s.acc.toNat := by simpa only [onTheWay, hs] using hw
  obtain ⟨hw', hleft, hrest⟩ := sampleStep_remaining h
  obtain ⟨l, acc, hl, hacc, rfl⟩ := sampleStep_next h
  have hvalue := decideBit_bitValue hacc hset
  refine ⟨hw', l, ?_⟩
  exact {
    left := by rw [hleft, List.length_singleton, Nat.add_comm]; simp only [bitsLeft, hs]
    rest := fun more hmore => by
      rw [hleft] at hmore
      rw [hrest more hmore, hvalue]
      simp [remaining, hs, hmore]
    levels := fun hlen => levels_of_sample hl (List.ne_nil_of_length_pos hlen)
    hist := rfl
    configuration := ⟨rfl, rfl, rfl, rfl⟩
    ill := rfl }

theorem decode_of_onTheWay {s : State} (hw : onTheWay s) (hs : s.seq = .exec) : decode s.cmdl = .ok .conv := by
  have hcmdl : s.cmdl = 0x00000004#32 := by simpa only [onTheWay, hs] using hw
  rw [hcmdl]
  exact decode_encode .conv

theorem engineStep_carriesOut {s t : State} (hw : onTheWay s) (h : engineStep s = .next t) :
    onTheWay t ∧ ∃ ls es, CarriesOut s t ls es := by
  obtain ⟨-, rfl⟩ | ⟨-, ⟨hs, -⟩ | ⟨hs, i, hi, h⟩ | ⟨hs, e, he, -⟩ | ⟨hs, h⟩ | ⟨hs, -, rfl⟩ | ⟨hs, h⟩⟩ :=
    engineStep_next h
  · exact ⟨hw, _, _, carriesOut_frame t _ _ _ _ _ _ _ _ _⟩
  · simp [onTheWay, hs] at hw
  · cases hi.symm.trans (decode_of_onTheWay hw hs)
    cases h
    exact ⟨trivial, _, _, start_carriesOut hs⟩
  · cases he.symm.trans (decode_of_onTheWay hw hs)
  · obtain ⟨hw', hcarries⟩ := trial_carriesOut hs h
    exact ⟨hw', _, _, hcarries⟩
  · have hset : 2 ^ s.bit.toNat ≤ s.acc.toNat := by simpa only [onTheWay, hs] using hw
    exact ⟨hset, _, _, settle_carriesOut hs⟩
  · obtain ⟨hw', _, hcarries⟩ := sample_carriesOut hs hw h
    exact ⟨hw', _, _, hcarries⟩

/-! ### Whole conversions -/

theorem step_carriesOut {s t : State} (hw : onTheWay s) (hs : s.seq ≠ .idle) (h : step s = .next t)
    (hr : t.inReset = false) : onTheWay t ∧ ∃ ls es, CarriesOut s t ls es := by
  obtain ⟨ts, k, h⟩ | h := step_busy h hs hr
  · obtain ⟨hw', _, _, hcarries⟩ := engineStep_carriesOut (s := { s with turns := ts, turnNo := k }) hw h
    exact ⟨hw', _, _, (carriesOut_frame s _ _ _ _ _ _ _ ts k).trans hcarries⟩
  · rw [h]
    exact ⟨hw, _, _, carriesOut_frame s _ _ _ _ _ _ _ _ _⟩

theorem runToIdle_carriesOut {n : Nat} {s t : State} (hw : onTheWay s) (h : runToIdle n s = some t) :
    (t.seq = .idle ∧ onTheWay t) ∧ ∃ ls es, CarriesOut s t ls es := by
  revert hw
  refine runUntil_induction
    (motive := fun s => onTheWay s → (t.seq = .idle ∧ onTheWay t) ∧ ∃ ls es, CarriesOut s t ls es)
    (fun _ hidle hw => ?_) (fun s u hbusy hstep hr ih hw => ?_) h
  · exact ⟨⟨by simpa using hidle, hw⟩, _, _, carriesOut_frame t _ _ _ _ _ _ _ _ _⟩
  · obtain ⟨hw', _, _, hfirst⟩ := step_carriesOut hw (by simpa using hbusy) hstep hr
    obtain ⟨hdone, _, _, hrest⟩ := ih hw'
    exact ⟨hdone, _, _, hfirst.trans hrest⟩

/-- Settles O45: from acceptance to completion the steps carry out the whole algorithm, and `ACC`, the response, is
what it returns. -/
theorem conversionRunsTheAlgorithm : Obligations.ConversionRunsTheAlgorithm := by
  rintro n s t ⟨-, hs, hcmdl⟩ hrun
  have hw : onTheWay s := by simpa only [onTheWay, hs] using hcmdl
  obtain ⟨⟨hidle, hdone⟩, ls, es, hcarries⟩ := runToIdle_carriesOut hw hrun
  simp only [onTheWay, hidle] at hdone
  obtain ⟨hrsp, hlast⟩ := hdone
  have hlen : top s.res + 1 = ls.length := by simpa only [bitsLeft, hs, hidle, Nat.add_zero] using hcarries.left
  have halgorithm : algorithm s.pin 0 ls = (es, t.acc.toNat) := by
    simpa only [remaining, hs, hidle, List.append_nil] using hcarries.rest [] (by simp only [bitsLeft, hidle]; rfl)
  have hcode : t.rsp.toNat = t.acc.toNat := by rw [hrsp]; exact BitVec.toNat_setWidth_of_le (by decide)
  rw [← hcode] at halgorithm
  refine ⟨ls, hlen.symm, hcarries.levels, ?_, ?_, ?_, hlast, hcarries.ill, hcarries.configuration⟩
  · rw [halgorithm]
    exact hcarries.hist
  · rw [halgorithm]
  · rw [halgorithm, hcode]

end Sys2Proof.Machine
end

section
/-! The laws of a whole conversion (spec/41_conversion.md R108 to R113): what O45 says of the run and the laws of the
algorithm, put together. -/

namespace Sys2Proof.Machine

/-- The events of a completed conversion are the algorithm's, and its response is the code of the levels read. -/
theorem conversion_result {n : Nat} {s t : State} (haccepted : convAccepted s) (hrun : runToIdle n s = some t) :
    ∃ ls : List Level, ls.length = top s.res + 1 ∧ t.hist = s.hist ++ (algorithm s.pin 0 ls).1 ∧
      t.rsp.toNat = codeOf ls := by
  obtain ⟨ls, hlen, -, hhist, hrsp, -⟩ := conversionRunsTheAlgorithm n s t haccepted hrun
  exact ⟨ls, hlen, hhist, by rw [hrsp, algorithm_snd, Nat.zero_add]⟩

/-- Settles O46: the levels read are those whose code the response is, the level for bit `b` at index `top - b`. -/
theorem bitDecisionLaw : Obligations.BitDecisionLaw := by
  intro n s t haccepted hrun
  obtain ⟨ls, hlen, hhist, hrsp⟩ := conversion_result haccepted hrun
  refine ⟨_, hhist, by rw [levelsRead_algorithm, hrsp], fun b hb => ?_⟩
  have hbit := codeOf_testBit ls (b := b) (by omega)
  rw [hlen, Nat.add_sub_cancel] at hbit
  rw [levelsRead_algorithm, BitVec.getLsbD, hrsp, hbit]

/-- Settles O47: count and order are the algorithm's, for the `top + 1` levels read. -/
theorem conversionEventOrder : Obligations.ConversionEventOrder := by
  intro n s t haccepted hrun
  obtain ⟨ls, hlen, hhist, -⟩ := conversion_result haccepted hrun
  refine ⟨_, hhist, by rw [algorithm_length, hlen], fun k hk => ?_⟩
  exact algorithm_alternates s.pin 0 ls (by omega)

/-- Clearing the low bits by shifts, and setting the highest of them, on numbers (41_conversion.md R112). -/
theorem trialValue_eq (c : Word) (b : Nat) :
    BitVec.ofNat 32 (c.toNat / 2 ^ (b + 1) * 2 ^ (b + 1) + 2 ^ b) =
      (c >>> (b + 1) <<< (b + 1)) ||| BitVec.ofNat 32 (2 ^ b) := by
  have hlow : 2 ^ b < 2 ^ (b + 1) := Nat.pow_lt_pow_right (by decide) (Nat.lt_succ_self b)
  rw [← Nat.shiftRight_eq_div_pow, ← Nat.shiftLeft_eq, Nat.shiftLeft_add_eq_or_of_lt hlow, BitVec.ofNat_or]
  rfl

theorem word_or_one (c : Word) : (c >>> 1 <<< 1) ||| 1#32 = c ||| 1#32 := by
  ext i hi
  cases i with
  | zero => simp
  | succ i => simp [Nat.add_comm, BitVec.getLsbD_eq_getElem hi]

/-- Settles O48: the first trial value is that for the top bit, above which the response has no bit, and the last is
that for bit 0. -/
theorem trialValues : Obligations.TrialValues := by
  intro n s t haccepted hrun
  obtain ⟨ls, hlen, hhist, hrsp⟩ := conversion_result haccepted hrun
  have hcode : t.rsp.toNat < 2 ^ (top s.res + 1) := by rw [hrsp, ← hlen]; exact codeOf_lt ls
  have hduty (b : Nat) (hb : b ≤ top s.res) : (dutiesSent (algorithm s.pin 0 ls).1)[top s.res - b]? =
      some (BitVec.ofNat 32 (t.rsp.toNat / 2 ^ (b + 1) * 2 ^ (b + 1) + 2 ^ b)) := by
    have h := dutiesSent_algorithm_getElem? s.pin (Nat.zero_mod (2 ^ ls.length)) (b := b) (by omega)
    rwa [hlen, Nat.add_sub_cancel, Nat.zero_add, ← hrsp] at h
  refine ⟨_, hhist, fun b hb => ?_, ?_, ?_⟩
  · rw [hduty b hb, trialValue_eq]
  · have h := hduty (top s.res) le_rfl
    rwa [Nat.sub_self, Nat.div_eq_of_lt hcode, Nat.zero_mul, Nat.zero_add, ← List.head?_eq_getElem?] at h
  · have h := hduty 0 (Nat.zero_le _)
    rw [trialValue_eq] at h
    rw [List.getLast?_eq_getElem?, dutiesSent_algorithm_length, hlen, ← word_or_one]
    exact h

/-- Settles O49: the response and the trial values of the algorithm, and `ACC` by the invariant. -/
theorem conversionRange : Obligations.ConversionRange := by
  refine ⟨fun n s t haccepted hrun => ?_, fun s hinv hs => ?_⟩
  · obtain ⟨ls, hlen, hhist, hrsp⟩ := conversion_result haccepted hrun
    have hcode := codeOf_lt ls
    have hmax := two_pow_top_succ_le s.res
    rw [← hlen] at hmax ⊢
    refine ⟨by omega, _, hhist, fun d hd => ?_⟩
    obtain ⟨v, rfl, hpos, hlt⟩ := dutiesSent_algorithm_range s.pin 0 ls d hd
    rw [BitVec.toNat_ofNat, Nat.mod_eq_of_lt (by omega)]
    omega
  · have hacc : s.acc.toNat < 2 ^ (top s.res + 1) := by
      obtain hs | hs | hs := hs
      · exact (hinv.trial_shape hs).2.1
      · exact (hinv.settle_shape hs).2.1
      · exact (hinv.sample_shape hs).2.1
    exact Nat.le_sub_one_of_lt hacc

/-- Settles O50: the events of the run are those of the algorithm, so its levels follow the threshold. -/
theorem thresholdLaw : Obligations.ThresholdLaw := by
  intro n s t T es haccepted hrun hes hfollow
  obtain ⟨ls, hlen, hhist, hrsp⟩ := conversion_result haccepted hrun
  obtain rfl : es = (algorithm s.pin 0 ls).1 := List.append_cancel_left (hes.symm.trans hhist)
  have hmax := two_pow_top_succ_le s.res
  have hclamped := codeOf_of_threshold s.pin (by rw [hlen]; omega) hfollow
  rw [Nat.zero_add, ← hrsp, hlen] at hclamped
  rw [hclamped]
  push_cast
  rw [zero_add]

end Sys2Proof.Machine
end

section
/-! How many ticks a run must use: for any count of ticks due, and between a trial and its sample
(spec/41_conversion.md R105, spec/70_reset_and_hazards.md R148). -/

namespace Sys2Proof.Machine

/-! ### The turns a run uses -/

/-- No agent touches the turns. -/
theorem agentStep_turns {turn : Turn} {s t : State} (h : agentStep turn s = .next t) :
    t.turns = s.turns ∧ t.turnNo = s.turnNo := by
  cases turn with
  | host => rw [hostStep_frame h]; exact ⟨rfl, rfl⟩
  | engine => rw [engineStep_frame h]; exact ⟨rfl, rfl⟩
  | tick => cases h; rw [tickStep_frame]; exact ⟨rfl, rfl⟩
  | assertReset => cases h; rw [assertReset_eq]; exact ⟨rfl, rfl⟩
  | releaseReset => cases h; exact ⟨rfl, rfl⟩

/-- A step uses the first turn of the list, or a free one. -/
theorem step_turns {s t : State} (h : step s = .next t) :
    (s.turns = (takeTurn s).1 :: t.turns ∧ t.turnNo = s.turnNo) ∨ t.turnNo = s.turnNo + 1 := by
  obtain ⟨hturns, hturnNo⟩ := agentStep_turns h
  rw [hturns, hturnNo, takeTurn_snd]
  cases hs : s.turns with
  | nil => exact .inr rfl
  | cons turn ts => exact .inl ⟨by simp [takeTurn, hs], rfl⟩

/-- A run to a state with no tick due uses at least as many ticks as are due at its start, where no step but a tick
makes fewer due, and a tick one fewer. A run that uses free turns is not counted. -/
theorem ticks_of_runUntil {stop : State → Bool} {P : State → Prop} {due : State → Nat}
    (hdone : ∀ s, stop s = true → due s = 0)
    (hstep : ∀ s t, P s → stop s = false → step s = .next t → t.inReset = false →
      P t ∧ due s ≤ due t + [(takeTurn s).1].count .tick)
    {n : Nat} {s t : State} (hs : P s) (h : runUntil stop n s = some t) :
    s.turnNo ≤ t.turnNo ∧
    (t.turnNo = s.turnNo → ∃ used, s.turns = used ++ t.turns ∧ due s ≤ used.count .tick) := by
  revert hs
  refine runUntil_induction
    (motive := fun s => P s → s.turnNo ≤ t.turnNo ∧
      (t.turnNo = s.turnNo → ∃ used, s.turns = used ++ t.turns ∧ due s ≤ used.count .tick))
    (fun _ hstop _ => ?_) (fun s u hbusy hsu hr ih hs => ?_) h
  · exact ⟨le_rfl, fun _ => ⟨[], rfl, (hdone t hstop).le⟩⟩
  · obtain ⟨hu, hdue⟩ := hstep s u hs hbusy hsu hr
    obtain ⟨hle, hused⟩ := ih hu
    obtain ⟨hturns, hturnNo⟩ | hfree := step_turns hsu
    · refine ⟨hturnNo.ge.trans hle, fun hno => ?_⟩
      obtain ⟨used, hsuffix, hcount⟩ := hused (hno.trans hturnNo.symm)
      refine ⟨(takeTurn s).1 :: used, by rw [hturns, hsuffix, List.cons_append], hdue.trans ?_⟩
      change _ ≤ ([(takeTurn s).1] ++ used).count .tick
      rw [List.count_append]
      omega
    · exact ⟨by omega, fun hno => by omega⟩

/-! ### The ticks due between a trial and its sample -/

/-- How many ticks come at least before the sample of the trial in progress (41_conversion.md R104, R105). -/
def ticksDue (s : State) : Nat :=
  match s.seq with
  | .cTrial => s.delay.toNat
  | .cSettle => s.scnt.toNat
  | _ => 0

theorem agentStep_ticksDue {turn : Turn} {s t : State} (hs : s.seq = .cTrial ∨ s.seq = .cSettle)
    (h : agentStep turn s = .next t) (hr : t.inReset = false) :
    converting t ∧ ticksDue s ≤ ticksDue t + [turn].count .tick := by
  have hbusy : s.seq ≠ .idle := by obtain hs | hs := hs <;> simp [hs]
  have hconv : converting s := hs.imp_right .inl
  cases turn with
  | host =>
    rw [hostStep_busy_frame h hbusy]
    exact ⟨hconv, le_rfl⟩
  | engine =>
    obtain ⟨-, rfl⟩ | ⟨-, ⟨hs', -⟩ | ⟨hs', -⟩ | ⟨hs', -⟩ | ⟨hs', h⟩ | ⟨hs', hc, rfl⟩ | ⟨hs', -⟩⟩ := engineStep_next h
    · exact ⟨hconv, le_rfl⟩
    · simp [hs'] at hs
    · simp [hs'] at hs
    · simp [hs'] at hs
    · obtain ⟨-, rfl⟩ := trialStep_next h
      exact ⟨.inr (.inl rfl), by simp [ticksDue, hs']⟩
    · exact ⟨.inr (.inr rfl), by simp [ticksDue, hs', hc]⟩
    · simp [hs'] at hs
  | tick =>
    cases h
    obtain ⟨h', -⟩ | ⟨-, hs', hc, h'⟩ := tickStep_cases s <;> rw [h']
    · exact ⟨hconv, Nat.le_add_right _ _⟩
    · have hpred := scnt_pred_toNat hc
      exact ⟨hconv, by simp only [ticksDue, hs', List.count_singleton_self]; omega⟩
  | assertReset => cases h; cases hr
  | releaseReset => cases h; exact ⟨hconv, le_rfl⟩

theorem step_ticksDue {s t : State} (hs : converting s) (hstop : (s.seq == .cSample) = false)
    (h : step s = .next t) (hr : t.inReset = false) :
    converting t ∧ ticksDue s ≤ ticksDue t + [(takeTurn s).1].count .tick := by
  have hs' : s.seq = .cTrial ∨ s.seq = .cSettle := by
    obtain hs | hs | hs := hs
    · exact .inl hs
    · exact .inr hs
    · simp [hs] at hstop
  have hagent : agentStep (takeTurn s).1 (takeTurn s).2 = .next t := h
  rw [takeTurn_snd] at hagent
  exact agentStep_ticksDue (s := { s with turns := s.turns.tail, turnNo := _ }) hs' hagent hr

/-- Settles O51: from the trial `DELAY` ticks are due, and at the sample none. -/
theorem trialWaitsItsDelay : Obligations.TrialWaitsItsDelay := by
  intro n s t used hs hrun hused hno
  have hdone (u : State) (hu : (u.seq == .cSample) = true) : ticksDue u = 0 := by
    simp only [ticksDue, beq_iff_eq.1 hu]
  obtain ⟨-, hticks⟩ := ticks_of_runUntil hdone (fun _ _ => step_ticksDue) (.inl hs) hrun
  obtain ⟨used', hused', hcount⟩ := hticks hno
  obtain rfl : used' = used := List.append_cancel_right (hused'.symm.trans hused)
  simpa only [ticksDue, hs] using hcount

end Sys2Proof.Machine
end

section
/-! The run of a whole conversion on the turns it needs (spec/41_conversion.md R101 to R107, spec/95_test_vectors.md
section 5.1): the start, and for each bit a trial, `DELAY` ticks, a settle and a sample. -/

namespace Sys2Proof.Machine

/-! ### One bit -/

theorem step_tick {s : State} {ts : List Turn} (hturns : s.turns = .tick :: ts) (hr : s.inReset = false)
    (hs : s.seq = .cSettle) (hc : s.scnt ≠ 0#32) : step s = .next { s with turns := ts, scnt := s.scnt - 1#32 } := by
  rw [step_of_turns hturns]
  simp [agentStep, tickStep, hr, hs, hc]

/-- As many ticks as `SCNT` counts bring it to 0. -/
theorem run_ticks {c : Nat} {s : State} {ts : List Turn} (hr : s.inReset = false) (hs : s.seq = .cSettle)
    (hc : s.scnt.toNat = c) (hturns : s.turns = List.replicate c .tick ++ ts) :
    Host.Core.run core c s = .next { s with turns := ts, scnt := 0#32 } := by
  induction c generalizing s with
  | zero =>
    obtain rfl : s.turns = ts := hturns
    rw [← (BitVec.eq_of_toNat_eq hc : s.scnt = 0#32)]
    rfl
  | succ c ih =>
    have hne : s.scnt ≠ 0#32 := fun h => by simp [h] at hc
    have hpred := scnt_pred_toNat hne
    rw [run_succ_of_step (step_tick hturns hr hs hne)]
    exact ih (s := { s with turns := List.replicate c .tick ++ ts, scnt := s.scnt - 1#32 }) hr hs
      (Nat.succ.inj (hpred.trans hc)) rfl

/-- The sample of a trial that has set the bit, with the level it reads given: it leaves what the level adds to the
accumulator `a` of before the trial. -/
theorem step_sample_of_level {s : State} {ts : List Turn} {l : Level} {more : List Level} {a : Nat}
    (hnext : engineNext s ts) (hs : s.seq = .cSample) (hlevels : s.levels = l :: more)
    (hacc : s.acc.toNat = a + 2 ^ s.bit.toNat) :
    step s = .next { s with
      turns := ts, levels := more, acc := BitVec.ofNat 10 (a + bitValue l s.bit.toNat),
      hist := s.hist ++ [.read s.pin l],
      rsp := if s.bit = 0#4 then BitVec.ofNat 32 (a + bitValue l s.bit.toNat) else s.rsp,
      last := if s.bit = 0#4 then .ok else s.last,
      seq := if s.bit = 0#4 then .idle else .cTrial,
      bit := if s.bit = 0#4 then s.bit else s.bit - 1#4 } := by
  obtain ⟨l', acc, hl, hvalue, hstep⟩ := step_sample hnext hs (by omega)
  obtain rfl : l = l' := by simpa [hlevels] using hl
  have haccNat : acc.toNat = a + bitValue l s.bit.toNat := by
    rw [hvalue, hacc]
    cases l <;> simp [bitValue]
  have hacc10 : acc = BitVec.ofNat 10 (a + bitValue l s.bit.toNat) := by
    rw [← haccNat, BitVec.ofNat_toNat, BitVec.setWidth_eq]
  have hacc32 : acc.setWidth 32 = BitVec.ofNat 32 (a + bitValue l s.bit.toNat) := by
    rw [← haccNat, BitVec.ofNat_toNat]
  rw [hstep, hacc32, hacc10, hlevels]
  rfl

/-- One bit, from its trial to its sample. -/
theorem run_bit {s : State} {ts : List Turn} {l : Level} {more : List Level} (hr : s.inReset = false)
    (hs : s.seq = .cTrial) (hlevels : s.levels = l :: more)
    (hturns : s.turns = .engine :: (List.replicate s.delay.toNat .tick ++ .engine :: .engine :: ts))
    (hfits : s.acc.toNat + 2 ^ s.bit.toNat < 1024) :
    Host.Core.run core (1 + (s.delay.toNat + (1 + 1))) s = .next { s with
      turns := ts, levels := more, acc := BitVec.ofNat 10 (s.acc.toNat + bitValue l s.bit.toNat), scnt := 0#32,
      hist := s.hist ++ [.duty (BitVec.ofNat 32 (s.acc.toNat + 2 ^ s.bit.toNat)), .read s.pin l],
      rsp := if s.bit = 0#4 then BitVec.ofNat 32 (s.acc.toNat + bitValue l s.bit.toNat) else s.rsp,
      last := if s.bit = 0#4 then .ok else s.last,
      seq := if s.bit = 0#4 then .idle else .cTrial,
      bit := if s.bit = 0#4 then s.bit else s.bit - 1#4 } := by
  have hsample := step_sample_of_level (ts := ts) (s := { s with
    turns := .engine :: ts, acc := BitVec.ofNat 10 (s.acc.toNat + 2 ^ s.bit.toNat), scnt := 0#32, seq := .cSample,
    hist := s.hist ++ [.duty (BitVec.ofNat 32 (s.acc.toNat + 2 ^ s.bit.toNat))] })
    ⟨rfl, hr⟩ rfl hlevels (Nat.mod_eq_of_lt hfits)
  rw [List.append_cons s.hist]
  refine run_append (run_one (step_trial ⟨hturns, hr⟩ hs hfits)) ?_
  refine run_append (run_ticks hr rfl rfl rfl) ?_
  exact run_append (run_one (step_settle ⟨rfl, hr⟩ rfl)) (run_one hsample)

/-! ### All bits -/

theorem trialTurns_succ (d n : Nat) :
    trialTurns d (n + 1) = .engine :: (List.replicate d .tick ++ .engine :: .engine :: trialTurns d n) := rfl

theorem length_trialTurns_succ (d n : Nat) :
    (trialTurns d (n + 1)).length = 1 + (d + (1 + 1)) + (trialTurns d n).length := by
  simp only [trialTurns_succ, List.length_cons, List.length_append, List.length_replicate]
  omega

theorem count_engine_trialTurns (d n : Nat) : (trialTurns d n).count .engine = 3 * n := by
  induction n with
  | zero => rfl
  | succ n ih => simp [trialTurns_succ, List.count_replicate, ih, Nat.mul_succ]

theorem count_tick_trialTurns (d n : Nat) : (trialTurns d n).count .tick = n * d := by
  induction n with
  | zero => exact (Nat.zero_mul d).symm
  | succ n ih => simp [trialTurns_succ, ih, Nat.succ_mul, Nat.add_comm]

/-- From the trial of the top bit left to completion: the accumulator gains the code of the levels read. -/
theorem run_trials {s : State} {ls more : List Level} {ts : List Turn} (hr : s.inReset = false) (hs : s.seq = .cTrial)
    (hbit : ls.length = s.bit.toNat + 1) (hlevels : s.levels = ls ++ more)
    (hturns : s.turns = trialTurns s.delay.toNat ls.length ++ ts) (hfits : s.acc.toNat + 2 ^ ls.length ≤ 1024) :
    Host.Core.run core (trialTurns s.delay.toNat ls.length).length s = .next { s with
      turns := ts, levels := more, seq := .idle, bit := 0#4, scnt := 0#32,
      acc := BitVec.ofNat 10 (s.acc.toNat + codeOf ls), rsp := BitVec.ofNat 32 (s.acc.toNat + codeOf ls), last := .ok,
      hist := s.hist ++ (algorithm s.pin s.acc.toNat ls).1 } := by
  induction ls generalizing s with
  | nil => cases hbit
  | cons l ls ih =>
    have hlen : s.bit.toNat = ls.length := (Nat.succ.inj hbit).symm
    have hpos : 0 < 2 ^ ls.length := Nat.two_pow_pos _
    have hvalue := bitValue_le l ls.length
    rw [List.length_cons, Nat.pow_succ] at hfits
    have hfirst := run_bit (ts := trialTurns s.delay.toNat ls.length ++ ts) hr hs hlevels
      (by rw [hturns, List.length_cons, trialTurns_succ]; simp) (by rw [hlen]; omega)
    rw [List.length_cons, length_trialTurns_succ]
    rw [hlen] at hfirst
    refine run_append hfirst ?_
    by_cases hb : s.bit = 0#4
    · obtain rfl : ls = [] := List.length_eq_zero_iff.1 (hlen.symm.trans (by simp [hb]))
      simp [hb, trialTurns, codeOf_cons, codeOf_nil, Host.Core.run]
    · have hpred := bit_pred_toNat s.bit hb
      have hacc : (BitVec.ofNat 10 (s.acc.toNat + bitValue l ls.length)).toNat =
          s.acc.toNat + bitValue l ls.length := Nat.mod_eq_of_lt (by omega)
      simp only [if_neg hb]
      refine (ih (s := { s with
        turns := trialTurns s.delay.toNat ls.length ++ ts, levels := ls ++ more,
        acc := BitVec.ofNat 10 (s.acc.toNat + bitValue l ls.length), scnt := 0#32,
        hist := s.hist ++ [.duty (BitVec.ofNat 32 (s.acc.toNat + 2 ^ ls.length)), .read s.pin l],
        seq := .cTrial, bit := s.bit - 1#4 }) hr rfl (by rw [hpred, hlen]) rfl rfl (by rw [hacc]; omega)).trans ?_
      simp only [hacc, codeOf_cons, algorithm_cons, Nat.add_assoc, List.append_assoc, List.cons_append, List.nil_append]

/-- Settles O53: the start step, and then the trials from an empty accumulator. -/
theorem conversionCompletes : Obligations.ConversionCompletes := by
  rintro s ls more ts ⟨hr, hs, hcmdl⟩ hlen hlevels hturns
  have hengine (d n : Nat) : (Turn.engine :: trialTurns d n).count .engine = 1 + 3 * n := by
    rw [List.count_cons_self, count_engine_trialTurns, Nat.add_comm]
  have htick (d n : Nat) : (Turn.engine :: trialTurns d n).count .tick = n * d := by
    rw [List.count_cons_of_ne (by decide), count_tick_trialTurns]
  refine ⟨?_, hengine _ _, htick _ _⟩
  rw [conversionTurns, ← hlen] at hturns ⊢
  have hstart := step_of_exec_legal (i := .conv) ⟨hturns, hr⟩ hs (by rw [hcmdl]; rfl)
  have hmax : 2 ^ ls.length ≤ 1024 := by rw [hlen]; exact two_pow_top_succ_le s.res
  have htrials := run_trials (ts := ts) (more := more) (s := { s with
    turns := trialTurns s.delay.toNat ls.length ++ ts, acc := 0#10, seq := .cTrial, bit := BitVec.ofNat 4 (top s.res) })
    hr rfl (by rw [hlen]; exact congrArg Nat.succ (top_toNat s.res).symm) hlevels rfl (by simpa using hmax)
  rw [List.length_cons, run_succ_of_step hstart]
  simpa using htrials

end Sys2Proof.Machine
end

section
/-! A rejected resolution operand, the status that every other completion writes, and the tick
(spec/60_exceptions.md R118, R127). -/

namespace Sys2Proof.Machine

/-! ### The completion status of a command (R118) -/

/-- A command that takes no resolution operand has nothing to reject. -/
theorem exec_without_resolution_last_ok {i : Instr} (hconv : i ≠ .conv) (hinitpr : ∀ q, i ≠ .initpr q)
    (hsetres : i ≠ .setres) (hsetrescfg : i ≠ .setrescfg) (s : State) : ∃ t, exec i s = .next t ∧ t.last = .ok := by
  obtain ⟨h, -⟩ | ⟨⟨q, h⟩ | h | h, -⟩ | ⟨-, _, _, _, h⟩ | ⟨-, _, h⟩ | ⟨-, _, h⟩ | ⟨-, h⟩ | ⟨-, _, h⟩ := exec_cases i s
  · exact absurd h hconv
  · exact absurd h (hinitpr q)
  · exact absurd h hsetres
  · exact absurd h hsetrescfg
  all_goals exact ⟨_, h, rfl⟩

/-- The three commands with a resolution operand accept one that names a resolution. -/
theorem exec_recognized_last_ok {s : State} {r : Resolution} (h : s.opl = resolutionWord r) (p : Pin) :
    ∀ i ∈ [Instr.initpr p, .setres, .setrescfg], ∃ t, exec i s = .next t ∧ t.last = .ok := by
  simp only [List.forall_mem_cons]
  exact ⟨⟨_, exec_initpr_recognized h p, rfl⟩, ⟨_, exec_setres_recognized h, rfl⟩,
    ⟨_, exec_setrescfg_recognized h, rfl⟩, by simp⟩

/-- Settles O25: only an operand that names no resolution is rejected, and only by the three commands that take one. -/
theorem errResEffect : Obligations.ErrResEffect := by
  refine fun s p => ⟨fun h0 h1 => exec_unrecognized h0 h1 p, fun i hi hinitpr hconv => ?_, fun hopl => ?_⟩
  · simp only [List.mem_cons, not_or] at hi
    obtain ⟨-, hsetres, hsetrescfg, -⟩ := hi
    exact exec_without_resolution_last_ok hconv hinitpr hsetres hsetrescfg s
  · obtain h | h := hopl
    · exact exec_recognized_last_ok (r := .eightBit) h p
    · exact exec_recognized_last_ok (r := .tenBit) h p

/-! ### The tick (R127) -/

/-- A tick with nothing to count down uses its turn and changes nothing else. -/
theorem step_tick_without_count {s : State} {ts : List Turn} (hturns : s.turns = .tick :: ts)
    (h : s.seq ≠ .cSettle ∨ s.scnt = 0#32) : step s = .next { s with turns := ts } := by
  rw [step_of_turns hturns]
  obtain ⟨h', -⟩ | ⟨-, hs, hc, -⟩ := tickStep_cases { s with turns := ts }
  · exact congrArg Host.Outcome.next h'
  · exact absurd h (not_or.2 ⟨not_not.2 hs, hc⟩)

/-! The statement has the name of the step itself, hence the namespace. -/

namespace Tick

/-- Settles O33: the count goes down by one where there is one, and every other tick leaves the machine. -/
theorem tickStep : Obligations.TickStep := fun _ _ hturns hr =>
  ⟨fun hs hc => ⟨_, scnt_pred_toNat hc, step_tick hturns hr hs hc⟩, step_tick_without_count hturns⟩

end Tick

end Sys2Proof.Machine
end

section
/-! Reset and boot (spec/70_reset_and_hazards.md R133 to R136): what asserting reset does and what happens until it is
released, the boot step, and the one-step completions (R147). -/

namespace Sys2Proof.Machine

/-! ### The reset values and the boot step (R134, R136) -/

theorem bootStep_eq (s : State) :
    bootStep s = { s with
      pin := Config.defaultPin, res := .tenBit, delay := 60#32, bres := .tenBit, rsp := 0#32, last := .ok,
      seq := .idle, hist := s.hist ++ .pinCfg Config.defaultPin :: bundleEvents .tenBit } := by
  rw [bootStep, construct_eq]

theorem step_of_boot {s : State} {ts : List Turn} (hnext : engineNext s ts) (hs : s.seq = .boot) :
    step s = .next (bootStep { s with turns := ts }) := by
  obtain ⟨hturns, hr⟩ := hnext
  rw [step_of_turns hturns]
  simp [agentStep, engineStep, hr, hs]

/-- Settles O6: the boot step from the reset state, computed. -/
theorem resetValues : Obligations.ResetValues := by
  refine ⟨rfl, rfl, rfl, rfl, rfl, rfl, rfl, rfl, rfl, rfl, rfl, rfl, rfl,
    _, step_of_boot ⟨rfl, rfl⟩ rfl, rfl, rfl, rfl, rfl, ?_⟩
  exact ⟨rfl, rfl, rfl, rfl, rfl, rfl, rfl, rfl, rfl, rfl, rfl, rfl, rfl, rfl, rfl, rfl, rfl⟩

/-- Settles O34: the reset state is what an asserted and released reset leaves of itself. -/
theorem resetMeetsInv : Obligations.ResetMeetsInv :=
  (releaseReset_keeps_inv (inv_assertReset State.reset) :)

/-- Settles O26: only CONV has a step after its first. -/
theorem oneStepCommands : Obligations.OneStepCommands := by
  refine ⟨fun i s hi => ?_, fun s ts hnext hs => ⟨_, step_of_boot hnext hs, rfl⟩⟩
  obtain ⟨t, ht⟩ := exec_goesOn i s
  obtain ⟨hconv, -⟩ | ⟨-, hidle, -⟩ := exec_starts_or_completes ht
  · exact absurd hconv hi
  · exact ⟨t, ht, hidle⟩

/-! The statement has the name of the step itself, hence the namespace. -/

namespace Boot

/-- Settles O8: the construction with the default pin, and the completion. -/
theorem bootStep : Obligations.BootStep := fun s ts hnext hs => by
  rw [step_of_boot hnext hs, bootStep_eq]

end Boot

/-! ### While reset is asserted (R133) -/

/-- While reset is asserted every element holds its reset value: `SEQ` and `ARG` by what the invariant says of reset,
the others by what it says of `BOOT`. -/
theorem Inv.reset_values {s : State} (h : Inv s) (hr : s.inReset = true) :
    s.seq = .boot ∧ statusWord s = 0x00000001#32 ∧ s.res = .tenBit ∧ s.bres = .tenBit ∧ s.delay = 60#32 ∧
      s.pin = Config.defaultPin ∧ s.acc = 0#10 ∧ s.bit = 0#4 ∧ s.scnt = 0#32 ∧ s.cmdl = 0#32 ∧ s.opl = 0#32 ∧
      s.arg = 0#32 ∧ s.rsp = 0#32 := by
  obtain ⟨hs, -, harg⟩ := h.reset hr
  obtain ⟨hres, hbres, hdelay, hpin, hacc, hbit, hscnt, hcmdl, hopl, hrsp, hlast, hill⟩ := h.boot hs
  have hstatus : statusWord s = 0x00000001#32 := by
    rw [statusWord_eq_ofNat, hill, hlast, hs]
    rfl
  exact ⟨hs, hstatus, hres, hbres, hdelay, hpin, hacc, hbit, hscnt, hcmdl, hopl, harg, hrsp⟩

theorem hostStep_refused {s : State} (hr : s.inReset = true) (hprog : s.program ≠ []) :
    hostStep s = .refused .accessDuringReset := by
  obtain ⟨t, h⟩ | ⟨h, -⟩ := hostStep_goesOn_or_refused s
  · obtain ⟨-, hnone, -⟩ | ⟨hr', -⟩ | ⟨hr', -⟩ := hostStep_next h
    · exact absurd hnone hprog
    · cases hr.symm.trans hr'
    · cases hr.symm.trans hr'
  · exact h

theorem step_of_assertReset {s : State} {ts : List Turn} (hturns : s.turns = .assertReset :: ts) :
    step s = .next (assertReset { s with turns := ts }) := step_of_turns hturns

/-- Settles O7: an asserted reset from any state, and then the turns of the agents until it is released. -/
theorem assertedReset : Obligations.AssertedReset := by
  refine fun s ts => ⟨fun hturns => ?_, fun hr hinv => hinv.reset_values hr, fun hr hturns => ?_,
    fun hr hturns hprog => ?_⟩
  · rw [step_of_assertReset hturns, assertReset_eq]
    rfl
  · obtain hturns | hturns := hturns <;> rw [step_of_turns hturns]
    · exact if_pos hr
    · exact congrArg _ (if_pos hr)
  · rw [step_of_turns hturns]
    exact hostStep_refused (s := { s with turns := ts }) hr hprog

/-- Reset asserted and released again: every element at its reset value, and what is not SARE's own left. -/
theorem run_assertReset_releaseReset {s : State} {ts : List Turn}
    (hturns : s.turns = .assertReset :: .releaseReset :: ts) :
    Host.Core.run core 2 s = .next { State.reset with
      hist := s.hist, names := s.names, program := s.program, turns := ts, turnNo := s.turnNo, levels := s.levels,
      draws := s.draws, faults := s.faults ++ if s.held.isSome then [.busError (busAddr 0x0#4)] else [] } := by
  have hassert := step_of_assertReset hturns
  rw [assertReset_eq] at hassert
  exact run_append (run_one hassert) (run_one (step_of_turns (t := .releaseReset) (ts := ts) rfl))

/-- Settles O9: only the boot step after the reset sends events. -/
theorem resetAbandonsTheCommand : Obligations.ResetAbandonsTheCommand := by
  intro s ts hturns
  have hreset := run_assertReset_releaseReset hturns
  refine ⟨_, run_append hreset (run_one (step_of_boot ⟨rfl, rfl⟩ rfl)), ?_⟩
  rw [bootStep_eq]
  exact ⟨rfl, rfl, rfl, rfl, rfl, rfl, rfl, rfl, (statusWord_eq_ofNat _).trans rfl, rfl⟩

/-! ### The run fault record (R149) -/

/-- A step enters nothing, a bus error inside the window, or the illegal word in `CMDL`, with `ILL` set. -/
def entersAtMostOneFault (s t : State) : Prop :=
  t.faults = s.faults ∨
  (∃ off : Offset, t.faults = s.faults ++ [.busError (Config.base + off.toNat)]) ∨
  (s.seq = .exec ∧ (∃ e, decode s.cmdl = .error e) ∧ t.faults = s.faults ++ [.illegalCommand s.cmdl] ∧ t.ill = true)

theorem hostStep_entersAtMostOneFault {s t : State} (h : hostStep s = .next t) : entersAtMostOneFault s t := by
  obtain hsame | ⟨off, rfl⟩ := hostStep_faults h
  · exact .inl hsame
  · exact .inr (.inl ⟨off, rfl⟩)

theorem engineStep_entersAtMostOneFault {s t : State} (h : engineStep s = .next t) : entersAtMostOneFault s t := by
  obtain ⟨-, rfl⟩ | ⟨-, _, -, h⟩ | ⟨hs, e, he, rfl⟩ | h := engineStep_boot_or_exec_or_frame h
  · exact .inl rfl
  · exact .inl (by rw [exec_frame h])
  · exact .inr (.inr ⟨hs, ⟨e, he⟩, rfl, rfl⟩)
  · exact .inl (by rw [h])

theorem assertReset_entersAtMostOneFault (s : State) : entersAtMostOneFault s (assertReset s) := by
  rw [assertReset_eq]
  cases s.held with
  | none => exact .inl (List.append_nil _)
  | some v => exact .inr (.inl ⟨0x0#4, rfl⟩)

/-- Settles O41, agent by agent: a tick and the release of reset enter nothing. -/
theorem faultRecordOnlyGrows : Obligations.FaultRecordOnlyGrows := by
  intro s t h
  obtain ⟨_, _, h | h | rfl | rfl | rfl⟩ := step_next h
  · exact (hostStep_entersAtMostOneFault h :)
  · exact (engineStep_entersAtMostOneFault h :)
  · exact .inl (by rw [tickStep_frame])
  · exact (assertReset_entersAtMostOneFault _ :)
  · exact .inl rfl

end Sys2Proof.Machine
end

section
/-! How many ticks a whole conversion must use (spec/70_reset_and_hazards.md R146). -/

namespace Sys2Proof.Machine

/-- How many ticks come at least before the conversion in progress completes: those due in the trial in progress, and
`DELAY` in each trial after it. -/
def conversionTicksDue (s : State) : Nat :=
  match s.seq with
  | .exec => (top s.res + 1) * s.delay.toNat
  | .cTrial => (s.bit.toNat + 1) * s.delay.toNat
  | .cSettle => s.scnt.toNat + s.bit.toNat * s.delay.toNat
  | .cSample => s.bit.toNat * s.delay.toNat
  | _ => 0

/-- After the sample the trials of the bits below `BIT` are left. -/
theorem sampleStep_conversionTicksDue {s t : State} (hs : s.seq = .cSample) (h : sampleStep s = .next t) :
    conversionTicksDue t = conversionTicksDue s := by
  obtain ⟨_, _, -, -, rfl⟩ := sampleStep_next h
  by_cases hb : s.bit = 0#4
  · simp [conversionTicksDue, hs, hb]
  · simp only [conversionTicksDue, hs, if_neg hb, bit_pred_toNat s.bit hb]

/-- The engine carries a conversion on without making any tick less due. -/
theorem engineStep_conversionTicksDue {s t : State} (hw : onTheWay s) (h : engineStep s = .next t) :
    conversionTicksDue s ≤ conversionTicksDue t := by
  obtain ⟨-, rfl⟩ | ⟨-, ⟨hs, -⟩ | ⟨hs, i, hi, h⟩ | ⟨hs, e, he, -⟩ | ⟨hs, h⟩ | ⟨hs, hc, rfl⟩ | ⟨hs, h⟩⟩ :=
    engineStep_next h
  · exact le_rfl
  · simp [onTheWay, hs] at hw
  · cases hi.symm.trans (decode_of_onTheWay hw hs)
    cases h
    simp only [conversionTicksDue, hs, top_toNat, le_refl]
  · cases he.symm.trans (decode_of_onTheWay hw hs)
  · obtain ⟨-, rfl⟩ := trialStep_next h
    simp only [conversionTicksDue, hs, Nat.succ_mul]
    omega
  · simp [conversionTicksDue, hs, hc]
  · exact (sampleStep_conversionTicksDue hs h).ge

theorem tickStep_conversionTicksDue (s : State) : conversionTicksDue s ≤ conversionTicksDue (tickStep s) + 1 := by
  obtain ⟨h, -⟩ | ⟨-, hs, hc, h⟩ := tickStep_cases s <;> rw [h]
  · exact Nat.le_succ _
  · have hpred := scnt_pred_toNat hc
    simp only [conversionTicksDue, hs]
    omega

/-- Only a tick makes fewer due, and only one fewer. -/
theorem agentStep_conversionTicksDue {turn : Turn} {s t : State} (hw : onTheWay s) (hs : s.seq ≠ .idle)
    (h : agentStep turn s = .next t) (hr : t.inReset = false) :
    conversionTicksDue s ≤ conversionTicksDue t + [turn].count .tick := by
  cases turn with
  | host =>
    rw [hostStep_busy_frame h hs]
    exact le_rfl
  | engine => exact engineStep_conversionTicksDue hw h
  | tick => cases h; exact tickStep_conversionTicksDue s
  | assertReset => cases h; cases hr
  | releaseReset => cases h; exact le_rfl

theorem step_conversionTicksDue {s t : State} (hw : onTheWay s) (hbusy : (s.seq == .idle) = false)
    (h : step s = .next t) (hr : t.inReset = false) :
    onTheWay t ∧ conversionTicksDue s ≤ conversionTicksDue t + [(takeTurn s).1].count .tick := by
  have hs : s.seq ≠ .idle := by simpa using hbusy
  have hagent : agentStep (takeTurn s).1 (takeTurn s).2 = .next t := h
  rw [takeTurn_snd] at hagent
  obtain ⟨hw', -⟩ := step_carriesOut hw hs h hr
  exact ⟨hw', agentStep_conversionTicksDue (s := { s with turns := s.turns.tail, turnNo := _ }) hw hs hagent hr⟩

/-- Settles O52: at acceptance `DELAY` ticks are due for each bit, and at completion none. -/
theorem conversionLatency : Obligations.ConversionLatency := by
  rintro n s t used ⟨-, hs, hcmdl⟩ hrun hused hno
  have hdone (u : State) (hu : (u.seq == .idle) = true) : conversionTicksDue u = 0 := by
    simp only [conversionTicksDue, beq_iff_eq.1 hu]
  have hw : onTheWay s := by simpa only [onTheWay, hs] using hcmdl
  obtain ⟨-, hticks⟩ := ticks_of_runUntil hdone (fun _ _ => step_conversionTicksDue) hw hrun
  obtain ⟨used', hused', hcount⟩ := hticks hno
  obtain rfl : used' = used := List.append_cancel_right (hused'.symm.trans hused)
  simpa only [conversionTicksDue, hs] using hcount

end Sys2Proof.Machine
end

section
/-! Progress (spec/70_reset_and_hazards.md R150): the engine steps still to come before `IDLE` have a bound that every
round of an engine turn and a tick brings down, so enough rounds complete any command, and a host turn before each
bring any host program to its end. -/

namespace Sys2Proof.Machine

/-! ### The work left to the engine -/

/-- A bound on the rounds of an engine turn and a tick before the engine is idle: `DELAY + 3` for each bit of a
conversion, and one for the first step of a command and for the boot step. -/
def roundsLeft (s : State) : Nat :=
  match s.seq with
  | .boot => 1
  | .idle => 0
  | .exec => (top s.res + 1) * (s.delay.toNat + 3) + 1
  | .cTrial => s.bit.toNat * (s.delay.toNat + 3) + s.delay.toNat + 3
  | .cSettle => s.bit.toNat * (s.delay.toNat + 3) + s.scnt.toNat + 2
  | .cSample => s.bit.toNat * (s.delay.toNat + 3) + 1

theorem roundsLeft_of_idle {s : State} (hs : s.seq = .idle) : roundsLeft s = 0 := by simp only [roundsLeft, hs]

theorem idle_of_roundsLeft {s : State} (h : roundsLeft s = 0) : s.seq = .idle := by
  cases hs : s.seq <;> simp [roundsLeft, hs] at h ⊢

/-- The invariant bounds `BIT` and `SCNT`, so one bound serves all states. -/
theorem exists_roundsLeft_le : ∃ n, ∀ s : State, Inv s → roundsLeft s ≤ n := by
  refine ⟨10 * (2 ^ 32 + 3), fun s hinv => ?_⟩
  have hdelay := s.delay.isLt
  have htop : top s.res ≤ 9 := by cases s.res <;> decide
  have hbits {b : Nat} (hb : b ≤ 9) : b * (s.delay.toNat + 3) ≤ 9 * (s.delay.toNat + 3) := Nat.mul_le_mul_right _ hb
  cases hs : s.seq with
  | boot => simp [roundsLeft, hs]
  | idle => simp [roundsLeft, hs]
  | exec =>
    have := hbits htop
    simp only [roundsLeft, hs, Nat.succ_mul]
    omega
  | cTrial =>
    obtain ⟨hbit, -⟩ := hinv.trial_shape hs
    have := hbits (hbit.trans htop)
    simp only [roundsLeft, hs]
    omega
  | cSettle =>
    obtain ⟨hbit, -, -, hscnt⟩ := hinv.settle_shape hs
    have := hbits (hbit.trans htop)
    simp only [roundsLeft, hs]
    omega
  | cSample =>
    obtain ⟨hbit, -⟩ := hinv.sample_shape hs
    have := hbits (hbit.trans htop)
    simp only [roundsLeft, hs]
    omega

/-! ### One round -/

/-- The engine waits for a tick (41_conversion.md R105). -/
abbrev waitsForTick (s : State) : Prop := s.seq = .cSettle ∧ s.scnt ≠ 0#32

theorem sampleStep_roundsLeft {s t : State} (hs : s.seq = .cSample) (h : sampleStep s = .next t) :
    roundsLeft t ≤ roundsLeft s - 1 := by
  obtain ⟨_, _, -, -, rfl⟩ := sampleStep_next h
  by_cases hb : s.bit = 0#4
  · simp only [roundsLeft, if_pos hb, Nat.zero_le]
  · simp only [roundsLeft, hs, if_neg hb, ← bit_pred_toNat s.bit hb, Nat.succ_mul]
    omega

/-- An engine turn does one round's work, unless the engine waits for a tick. -/
theorem engineStep_roundsLeft {s t : State} (hr : s.inReset = false) (h : engineStep s = .next t) :
    roundsLeft t ≤ roundsLeft s - 1 ∨ (roundsLeft t = roundsLeft s ∧ waitsForTick t) := by
  have hdone (hidle : t.seq = .idle) : roundsLeft t ≤ roundsLeft s - 1 := by simp [roundsLeft_of_idle hidle]
  obtain ⟨hr' | hidle | hwaits, rfl⟩ |
    ⟨-, ⟨-, rfl⟩ | ⟨hs, i, -, h⟩ | ⟨-, _, -, rfl⟩ | ⟨hs, h⟩ | ⟨hs, -, rfl⟩ | ⟨hs, h⟩⟩ := engineStep_next h
  · cases hr.symm.trans hr'
  · exact .inl (hdone hidle)
  · exact .inr ⟨rfl, hwaits⟩
  · exact .inl (hdone rfl)
  · obtain ⟨-, rfl⟩ | ⟨-, hidle, -⟩ := exec_starts_or_completes h
    · refine .inl ?_
      simp only [roundsLeft, hs, top_toNat, Nat.succ_mul]
      omega
    · exact .inl (hdone hidle)
  · exact .inl (hdone rfl)
  · obtain ⟨-, rfl⟩ := trialStep_next h
    exact .inl (by simp only [roundsLeft, hs]; omega)
  · exact .inl (by simp only [roundsLeft, hs]; omega)
  · exact .inl (sampleStep_roundsLeft hs h)

/-- A tick does one round's work where the engine waits for it, and undoes none anywhere. -/
theorem tickStep_roundsLeft {s : State} (hr : s.inReset = false) :
    roundsLeft (tickStep s) ≤ roundsLeft s ∧ (waitsForTick s → roundsLeft (tickStep s) ≤ roundsLeft s - 1) := by
  obtain ⟨h, hnone⟩ | ⟨-, hs, hc, h⟩ := tickStep_cases s <;> rw [h]
  · refine ⟨le_rfl, fun ⟨hs, hc⟩ => ?_⟩
    obtain hr' | hs' | hc' := hnone
    · cases hr.symm.trans hr'
    · exact absurd hs hs'
    · exact absurd hc' hc
  · have hpred := scnt_pred_toNat hc
    have hless : roundsLeft { s with scnt := s.scnt - 1#32 } ≤ roundsLeft s - 1 := by
      simp only [roundsLeft, hs]
      omega
    exact ⟨hless.trans (Nat.sub_le _ _), fun _ => hless⟩

/-- What engine turns and ticks make of `s`, with the turns `ts` still to come: they leave the host as it was. -/
structure EngineRan (s u : State) (ts : List Turn) : Prop where
  inv : Inv u
  running : u.inReset = false
  turns : u.turns = ts
  held : u.held = s.held
  program : u.program = s.program

theorem EngineRan.trans {s t u : State} {ts ts' : List Turn} (h : EngineRan s t ts) (h' : EngineRan t u ts') :
    EngineRan s u ts' :=
  ⟨h'.inv, h'.running, h'.turns, h'.held.trans h.held, h'.program.trans h.program⟩

section
variable {s : State} {ts : List Turn}

theorem step_engineTurn (hinv : Inv s) (hr : s.inReset = false) (hturns : s.turns = .engine :: ts) :
    ∃ t, step s = .next t ∧ EngineRan s t ts ∧
      (roundsLeft t ≤ roundsLeft s - 1 ∨ (roundsLeft t = roundsLeft s ∧ waitsForTick t)) := by
  have hinv' : Inv { s with turns := ts } := hinv.withTurns ts s.turnNo
  obtain ⟨t, h⟩ := engineStep_goesOn hinv'
  have hinvt := engineStep_keeps_inv hinv' h
  refine ⟨t, (step_of_turns hturns).trans h, ?_, engineStep_roundsLeft (s := { s with turns := ts }) hr h⟩
  rw [engineStep_frame h] at hinvt ⊢
  exact ⟨hinvt, hr, rfl, rfl, rfl⟩

theorem step_tickTurn (hinv : Inv s) (hr : s.inReset = false) (hturns : s.turns = .tick :: ts) :
    ∃ t, step s = .next t ∧ EngineRan s t ts ∧
      roundsLeft t ≤ roundsLeft s ∧ (waitsForTick s → roundsLeft t ≤ roundsLeft s - 1) := by
  have hinvt := tickStep_keeps_inv (hinv.withTurns ts s.turnNo)
  refine ⟨_, step_of_turns hturns, ?_, tickStep_roundsLeft (s := { s with turns := ts }) hr⟩
  rw [tickStep_frame] at hinvt ⊢
  exact ⟨hinvt, hr, rfl, rfl, rfl⟩

/-- One round leaves less work, if there was any. -/
theorem run_engineRound (hinv : Inv s) (hr : s.inReset = false) (hturns : s.turns = .engine :: .tick :: ts) :
    ∃ u, Host.Core.run core 2 s = .next u ∧ EngineRan s u ts ∧ roundsLeft u ≤ roundsLeft s - 1 := by
  obtain ⟨t, hengine, hran, hwork⟩ := step_engineTurn hinv hr hturns
  obtain ⟨u, htick, hran', hkept, hwaited⟩ := step_tickTurn hran.inv hran.running hran.turns
  refine ⟨u, run_append (run_one hengine) (run_one htick), hran.trans hran', ?_⟩
  obtain hless | ⟨hsame, hwaits⟩ := hwork
  · exact hkept.trans hless
  · exact hsame ▸ hwaited hwaits

end

/-! ### Enough rounds -/

/-- `n` rounds of an engine turn and a tick. -/
def engineRounds : Nat → List Turn
  | 0 => []
  | n + 1 => .engine :: .tick :: engineRounds n

theorem mem_engineRounds {n : Nat} : ∀ turn ∈ engineRounds n, turn = .engine ∨ turn = .tick := by
  induction n with
  | zero => nofun
  | succ n ih => simpa [engineRounds] using ih

/-- As many rounds as are left bring the engine to `IDLE`; more do no harm. -/
theorem run_engineRounds {n : Nat} {s : State} {ts : List Turn} (hinv : Inv s) (hr : s.inReset = false)
    (hturns : s.turns = engineRounds n ++ ts) (hn : roundsLeft s ≤ n) :
    ∃ u, Host.Core.run core (engineRounds n).length s = .next u ∧ EngineRan s u ts ∧ u.seq = .idle := by
  induction n generalizing s with
  | zero => exact ⟨s, rfl, ⟨hinv, hr, hturns, rfl, rfl⟩, idle_of_roundsLeft (Nat.le_zero.1 hn)⟩
  | succ n ih =>
    obtain ⟨t, hround, hran, hless⟩ := run_engineRound hinv hr hturns
    obtain ⟨u, hrest, hran', hidle⟩ := ih hran.inv hran.running hran.turns (by omega)
    have hlen : (engineRounds (n + 1)).length = 2 + (engineRounds n).length := Nat.add_comm (engineRounds n).length 2
    exact ⟨u, hlen ▸ run_append hround hrest, hran.trans hran', hidle⟩

/-- Settles O54: as many rounds as are left. -/
theorem engineCanAlwaysReachIdle : Obligations.EngineCanAlwaysReachIdle := by
  intro s hinv hr
  obtain ⟨u, hrun, hran, hidle⟩ := run_engineRounds (n := roundsLeft s) (ts := [])
    (hinv.withTurns (engineRounds (roundsLeft s)) s.turnNo) hr (List.append_nil _).symm le_rfl
  exact ⟨engineRounds (roundsLeft s), mem_engineRounds, u, hrun, hidle, hran.running, hran.program, hran.held⟩

/-! ### The host -/

/-- In `IDLE` no write is held and no poll is repeated: the statement is done with (20_memory.md R50, 30_encoding.md
R73). -/
theorem hostStmt_idle (st : HostStmt) {s : State} (hs : s.seq = .idle) :
    (hostStmt st s).held = s.held ∧ (hostStmt st s).program = s.program := by
  cases st with
  | write off n v => exact ⟨by simp [hostStmt, memWrite_held, hs], memWrite_program off n v s⟩
  | read off n name =>
    rw [hostStmt]
    cases memRead off n s <;> exact ⟨rfl, rfl⟩
  | wait =>
    rw [hostStmt, pollStatus_idle hs]
    exact ⟨rfl, rfl⟩

/-- In `IDLE` a host turn takes what is first of the statements outstanding. -/
theorem hostStep_outstanding_idle {s t : State} (hs : s.seq = .idle) (h : hostStep s = .next t) :
    outstanding t = (outstanding s).tail := by
  obtain ⟨hheld, hprog, rfl⟩ | ⟨-, v, hheld, ⟨-, rfl⟩ | ⟨hbusy, -⟩⟩ | ⟨-, hheld, st, rest, hprog, rfl⟩ := hostStep_next h
  · simp [outstanding, hheld, hprog]
  · simp [outstanding, hheld]
  · exact absurd hs hbusy
  · obtain ⟨hheld', hprog'⟩ := hostStmt_idle st (s := { s with program := rest }) hs
    rw [outstanding_congr hheld' hprog']
    simp [outstanding, hheld, hprog]

theorem step_hostTurn {s : State} {ts : List Turn} (hinv : Inv s) (hr : s.inReset = false) (hs : s.seq = .idle)
    (hturns : s.turns = .host :: ts) :
    ∃ t, step s = .next t ∧ Inv t ∧ t.inReset = false ∧ t.turns = ts ∧ outstanding t = (outstanding s).tail := by
  obtain ⟨t, h⟩ | ⟨-, hr', -⟩ := hostStep_goesOn_or_refused { s with turns := ts }
  · have hinvt := hostStep_keeps_inv (hinv.withTurns ts s.turnNo) h
    have houtstanding := hostStep_outstanding_idle (s := { s with turns := ts }) hs h
    refine ⟨t, (step_of_turns hturns).trans h, hinvt, ?_, ?_, houtstanding⟩ <;> rw [hostStep_frame h]
    exact hr
  · cases hr.symm.trans hr'

/-- `k` host turns, and `n` rounds for the engine after each. -/
def hostRounds (n : Nat) : Nat → List Turn
  | 0 => []
  | k + 1 => .host :: (engineRounds n ++ hostRounds n k)

theorem mem_hostRounds {n k : Nat} : ∀ turn ∈ hostRounds n k, turn = .host ∨ turn = .engine ∨ turn = .tick := by
  induction k with
  | zero => nofun
  | succ k ih =>
    rw [hostRounds, List.forall_mem_cons, List.forall_mem_append]
    exact ⟨.inl rfl, fun turn h => .inr (mem_engineRounds turn h), ih⟩

/-- From `IDLE` each host turn takes a statement, and the rounds after it complete the command it may start. -/
theorem run_hostRounds {n : Nat} (hn : ∀ s : State, Inv s → roundsLeft s ≤ n) {k : Nat} {s : State} (hinv : Inv s)
    (hr : s.inReset = false) (hs : s.seq = .idle) (hturns : s.turns = hostRounds n k)
    (hk : (outstanding s).length = k) :
    ∃ u, Host.Core.run core (hostRounds n k).length s = .next u ∧ outstanding u = [] ∧ u.seq = .idle ∧
      u.inReset = false := by
  induction k generalizing s with
  | zero => exact ⟨s, rfl, List.length_eq_zero_iff.1 hk, hs, hr⟩
  | succ k ih =>
    obtain ⟨t, hhost, hinvt, hrt, hturnst, houtstanding⟩ := step_hostTurn hinv hr hs hturns
    obtain ⟨u, hengine, hran, hidle⟩ := run_engineRounds hinvt hrt hturnst (hn t hinvt)
    have hku : (outstanding u).length = k := by
      rw [outstanding_congr hran.held hran.program, houtstanding, List.length_tail, hk, Nat.add_sub_cancel]
    obtain ⟨w, hrest, hdone⟩ := ih hran.inv hran.running hidle hran.turns hku
    refine ⟨w, ?_, hdone⟩
    rw [hostRounds, List.length_cons, List.length_append, run_succ_of_step hhost]
    exact run_append hengine hrest

theorem outstanding_eq_nil {s : State} (h : outstanding s = []) : s.program = [] ∧ s.held = none := by
  cases hheld : s.held with
  | none => simpa [outstanding, hheld] using h
  | some v => simp [outstanding, hheld] at h

/-- Settles O55: rounds until the engine is idle, and then a host turn and rounds for each statement outstanding. -/
theorem hostProgramCanFinish : Obligations.HostProgramCanFinish := by
  intro s hinv hr
  obtain ⟨n, hn⟩ := exists_roundsLeft_le
  have hinv' := hinv.withTurns (engineRounds n ++ hostRounds n (outstanding s).length) s.turnNo
  obtain ⟨t, hengine, hran, hidle⟩ := run_engineRounds hinv' hr rfl (hn _ hinv')
  obtain ⟨u, hhost, hdone, hidleu, hru⟩ := run_hostRounds hn hran.inv hran.running hidle hran.turns
    (congrArg List.length (outstanding_congr hran.held hran.program))
  obtain ⟨hprog, hheld⟩ := outstanding_eq_nil hdone
  refine ⟨engineRounds n ++ hostRounds n (outstanding s).length, ?_, u, ?_, hprog, hheld, hidleu, hru⟩
  · rw [List.forall_mem_append]
    exact ⟨fun turn h => .inr (mem_engineRounds turn h), mem_hostRounds⟩
  · rw [List.length_append]
    exact run_append hengine hhost

end Sys2Proof.Machine
end
